-- ==== Sys2Proof/Word.lean ====
section
/-! DEFINITION. The two word types of the block: the byte of the data path (00_scope.md R13) and the
32-bit word of the bus and of every control register (10_state.md R25). -/

namespace Sys2Proof

/-- A byte: an 8-bit unsigned value (R13). -/
abbrev Byte := BitVec 8

/-- A 32-bit word: a control register, a bus offset, or the value a host access carries (R25, R60). -/
abbrev Word := BitVec 32

end Sys2Proof
end

