-- ==== Sys2Proof/Syntax.lean ====
section
/-! DEFINITION. The commands of the block, one constructor per row of spec/opcode_table.json
(30_encoding.md R96, mnemonics R102), and the four fields of a command word (R91). No command has an
operand (R100), so no constructor has an argument. -/

namespace Sys2Proof

/-- The eight commands (R96). -/
inductive Instr where
  /-- Block-Encrypt (43_pipelines.md R171). -/
  | benc
  /-- Block-Decrypt (R173). -/
  | bdec
  /-- Stream-Encrypt (R175). -/
  | senc
  /-- Stream-Decrypt (R176). -/
  | sdec
  /-- The pad unit alone (40_padding.md R121). -/
  | pad
  /-- The depad unit alone (R123). -/
  | depad
  /-- The cyclic-key XOR datapath alone (41_key_xor.md R141). -/
  | kxor
  /-- The swap network alone (42_swap.md R155). -/
  | swap
  deriving DecidableEq, Repr

/-- The fields of a 32-bit command word (R91): FAM [1:0], MODE [3:2], OP [7:4], RSVD [31:8]. -/
structure Fields where
  fam : BitVec 2
  mode : BitVec 2
  op : BitVec 4
  rsvd : BitVec 24
  deriving DecidableEq, Repr

end Sys2Proof
end

