-- ==== Sys2Proof/WellFormed.lean ====
section
/-! DEFINITION. Which field values of a command word are legal (30_encoding.md R92 to R95,
60_exceptions.md R191). An `Instr` has no operand (R100), so every constructor is well formed; the
checks here are of the word's fields, and `Decode` rejects exactly the words that fail one. -/

namespace Sys2Proof

/-- RSVD must be zero (R95). -/
def Fields.rsvdZero (f : Fields) : Bool := f.rsvd == 0

/-- OP is one of 0x1 PIPE, 0x2 PAD, 0x3 DEPAD, 0x4 KXOR, 0x5 SWAP (R94). -/
def Fields.opAssigned (f : Fields) : Bool := decide (1 ≤ f.op.toNat) && decide (f.op.toNat ≤ 5)

/-- FAM is Block 0b00 or Stream 0b01 (R92). -/
def Fields.famRecognized (f : Fields) : Bool := decide (f.fam.toNat ≤ 1)

/-- MODE is Encrypt 0b00 or Decrypt 0b01 (R93). -/
def Fields.modeRecognized (f : Fields) : Bool := decide (f.mode.toNat ≤ 1)

/-- A stage command (OP other than PIPE) has FAM = 0 and MODE = 0 (R94). -/
def Fields.stagePlain (f : Fields) : Bool := f.op == 1 || (f.fam == 0 && f.mode == 0)

/-- All five checks of R191. -/
def Fields.wellFormed (f : Fields) : Bool :=
  f.rsvdZero && f.opAssigned && f.famRecognized && f.modeRecognized && f.stagePlain

end Sys2Proof
end

