-- ==== Sys2Proof/Decode.lean ====
section
/-! DEFINITION. Decoding a command word (30_encoding.md R96, R97), total on all 2^32 words and rejecting
by name, and after it the encoder written from the field columns of the same table. -/

namespace Sys2Proof

/-- Why a word is not a command. The block reports each of them as INVALID_SELECTOR (60_exceptions.md
R191, whose five kinds these are); the split is the model's own and nothing else depends on it. -/
inductive Reject where
  /-- A non-zero bit in [31:8] (R95). -/
  | reservedBits
  /-- OP = 0 or OP ≥ 6 (R94). -/
  | operation
  /-- FAM = 0b10 or 0b11 (R92). -/
  | family
  /-- MODE = 0b10 or 0b11 (R93). -/
  | direction
  /-- A stage command with a non-zero FAM or MODE (R94). -/
  | stageSelector
  deriving DecidableEq, Repr

/-- The fields of a word, at the bit places of R91. -/
def Fields.ofWord (w : Word) : Fields :=
  { fam := w.extractLsb' 0 2, mode := w.extractLsb' 2 2, op := w.extractLsb' 4 4, rsvd := w.extractLsb' 8 24 }

/-- The word that holds given fields: `RRRRRRRR RRRRRRRR RRRRRRRR OOOOMMFF` (R91). -/
def Fields.toWord (f : Fields) : Word := f.rsvd ++ f.op ++ f.mode ++ f.fam

/-- The name under which a word outside the table of R96 is rejected, by the first of R191's checks that
it fails. -/
def rejectName (f : Fields) : Reject :=
  if f.rsvdZero = false then .reservedBits
  else if f.opAssigned = false then .operation
  else if f.famRecognized = false then .family
  else if f.modeRecognized = false then .direction
  else .stageSelector

/-- Decoding compares all 32 bits with the eight words of R96. -/
def decode (w : Word) : Except Reject Instr :=
  if w = 0x00000010#32 then .ok .benc
  else if w = 0x00000014#32 then .ok .bdec
  else if w = 0x00000011#32 then .ok .senc
  else if w = 0x00000015#32 then .ok .sdec
  else if w = 0x00000020#32 then .ok .pad
  else if w = 0x00000030#32 then .ok .depad
  else if w = 0x00000040#32 then .ok .kxor
  else if w = 0x00000050#32 then .ok .swap
  else .error (rejectName (Fields.ofWord w))

/-- The FAM, MODE and OP columns of R96's table; RSVD is zero (R95). -/
def Instr.fields : Instr → Fields
  | .benc => { fam := 0b00, mode := 0b00, op := 0x1, rsvd := 0 }
  | .bdec => { fam := 0b00, mode := 0b01, op := 0x1, rsvd := 0 }
  | .senc => { fam := 0b01, mode := 0b00, op := 0x1, rsvd := 0 }
  | .sdec => { fam := 0b01, mode := 0b01, op := 0x1, rsvd := 0 }
  | .pad => { fam := 0b00, mode := 0b00, op := 0x2, rsvd := 0 }
  | .depad => { fam := 0b00, mode := 0b00, op := 0x3, rsvd := 0 }
  | .kxor => { fam := 0b00, mode := 0b00, op := 0x4, rsvd := 0 }
  | .swap => { fam := 0b00, mode := 0b00, op := 0x5, rsvd := 0 }

/-- The command word of an instruction, put together from its fields. -/
def encode (i : Instr) : Word := i.fields.toWord

/-- The instruction the decoder reads from an opcode-table word. The only format is the 32-bit command
word (R90), which one 4-byte write carries whole, so the table's bit numbers are the word's own. -/
def decodeTableWord (nbits w : Nat) : Option Instr :=
  match decode (BitVec.ofNat 32 (w % 2 ^ nbits)) with
  | .ok i => some i
  | .error _ => none

end Sys2Proof
end

