-- ==== Sys2Proof/Config.lean ====
section
/-! DEFINITION. What an implementation of the block fixes (the two capacities, 00_scope.md R9 and R10),
where the platform puts it (R11), and the free value the spec leaves open (20_memory.md R73). None of the opaque
constants has a value that Lean could see: what is proved about the model holds for every legal choice. -/

namespace Sys2Proof

/-- BUF_MAX counted in blocks of 16 bytes, less one: every legal BUF_MAX is `16 * (bufBlocks + 1)` for
exactly one such number (R9: a multiple of 16 with 16 ≤ BUF_MAX ≤ 0xFFFF_0000). Log entry 1. -/
opaque Config.bufBlocks : Fin 0x0FFFF000

/-- KEY_MAX less one: every legal KEY_MAX is `keyBytes + 1` for exactly one such number
(R10: 1 ≤ KEY_MAX ≤ 4096). Log entry 1. -/
opaque Config.keyBytes : Fin 4096

/-- BUF_MAX, the number of bytes DBUF holds (R9). -/
def Config.bufMax : Word := BitVec.ofNat 32 (16 * (Config.bufBlocks.val + 1))

/-- KEY_MAX, the number of bytes KEYMEM holds (R10). -/
def Config.keyMax : Word := BitVec.ofNat 32 (Config.keyBytes.val + 1)

/-- BASE: the bus address at which the block's offset 0 appears (R11). It is the platform's, and the block
itself sees offsets only. Log entry 10. -/
opaque Config.base : Nat

/-- FREE VALUE: what the k-th read of LEN or of the data window made while BUSY = 1 returns, before it
is cut to the width of the access (R73, 93_implementation_defined.md U2: "Each such read draws
independently"). Log entry 4. -/
opaque Config.freeRead : Nat → Word

end Sys2Proof
end

