-- ==== Sys2Proof/Machine/State.lean ====
section
/-! DEFINITION. The state of the block (10_state.md R23), the host's accesses that are still to come, the
reasons a step can stop, and the state after reset (70_reset_and_hazards.md R220). -/

namespace Sys2Proof.Machine

/-- STATUS.ERR (R30). The reserved codes 4 to 7 are never produced, so they have no constructor. -/
inductive ErrCode where
  /-- 0: no error. -/
  | none
  /-- 1: the CMD word is none of the eight (60_exceptions.md R191). -/
  | invalidSelector
  /-- 2: a key-using command with KEYLEN = 0 (R192). -/
  | emptyKey
  /-- 3: LEN > BUF_MAX, or KEYLEN > KEY_MAX for a key-using command (R193). -/
  | lengthRange
  deriving DecidableEq, Repr

/-- The live fields of STATUS (R28 to R31); its other bits read as 0 and hold nothing (R32). -/
structure Status where
  /-- Bit 0: a command is in flight (R28). -/
  busy : Bool
  /-- Bit 1: the last command has finished or was rejected (R29). -/
  done : Bool
  /-- Bits [4:2]: the error code of the last issue (R30). -/
  err : ErrCode
  /-- Bit 8: a host write was dropped (R31). -/
  wrbusy : Bool
  deriving DecidableEq, Repr

/-- A byte memory as (index, byte) pairs, indices strictly rising. An index that is not listed holds no
value: nothing has filled it since reset (R222). -/
abbrev Memory := List Host.Cell

/-- The size of a host access, n ∈ {1, 2, 4} bytes (20_memory.md R73). -/
inductive Width where
  | one
  | two
  | four
  deriving DecidableEq, Repr

/-- What can happen next, in the one total order in which the bus serialises the host accesses and the
engine and the reset take their turns (20_memory.md R76, 10_state.md R40, 60_exceptions.md R201). -/
inductive Event where
  /-- The host read `MemRead(addr, n)`. -/
  | read (addr : Word) (n : Width)
  /-- The host write `MemWrite(addr, n, v)`. -/
  | write (addr : Word) (n : Width) (v : Word)
  /-- The engine's turn: its completion step, if one is enabled (R42). -/
  | engine
  /-- Reset (R220). -/
  | reset
  deriving DecidableEq, Repr

/-- What the block answers to one host access. -/
inductive Response where
  /-- A read that returns a 32-bit value (R73). -/
  | data (v : Word)
  /-- A write that completes with an OKAY response, dropped or not (R199). -/
  | okay
  /-- A bus error response to an access at this offset (R200). -/
  | busError (addr : Word)
  deriving DecidableEq, Repr

/-- The whole state. The first eight fields are the architectural state of R23 (its BLKSZ and PADVAL are
hard-wired constants and stand in `Machine.csrValue`); the last three are the model's own. -/
structure State where
  /-- CMD: the last accepted command word (R26). -/
  cmd : Word
  /-- STATUS (R28 to R32). -/
  status : Status
  /-- LEN: the number of bytes of DBUF that form the buffer (R33). -/
  len : Word
  /-- KEYLEN: the number of bytes of KEYMEM that form the key (R34). -/
  keylen : Word
  /-- BUFCAP: BUF_MAX, never written (R35). -/
  bufcap : Word
  /-- KEYCAP: KEY_MAX, never written (R36). -/
  keycap : Word
  /-- DBUF, by index (R39). -/
  dbuf : Memory
  /-- KEYMEM, by index (R39). -/
  keymem : Memory
  /-- The model's: the host accesses, engine turns and resets to come, the next one first (log entry 2). -/
  inputs : List Event
  /-- The model's: the answer to the last host access, none before the first one (log entry 3). -/
  response : Option Response
  /-- The model's: how many free values have been drawn (log entry 4). -/
  draws : Nat
  deriving DecidableEq, Repr

/-- The reasons a step stops with a fault. All are safe: the machine stops where a real block would go on
with some value. The last five are raised only in states that no run reaches. -/
inductive Fault where
  /-- A host read or an engine read of DBUF[i], a byte that nothing has filled since reset. Raised by
  `readData` (R222, 93_implementation_defined.md U1). Safe. -/
  | unfilledData (i : Nat)
  /-- A host read or an engine read of KEYMEM[j], a byte that nothing has filled since reset. Raised by
  `readKey` (R222, U1). Safe. -/
  | unfilledKey (j : Nat)
  /-- An engine access to DBUF[i] with i ≥ BUF_MAX, where there is no byte. Raised by `readData` and
  `writeData`; validation rules it out (20_memory.md R82). Safe. -/
  | dataIndex (i : Nat)
  /-- An engine access to KEYMEM[j] with j ≥ KEY_MAX, where there is no byte. Raised by `readKey`;
  validation rules it out (R82). Safe. -/
  | keyIndex (j : Nat)
  /-- K(i) with KEYLEN = 0. Raised by `keyAt`; validation rules it out (00_scope.md R14). Safe. -/
  | zeroKeyLength
  /-- A swap cursor below zero at an exchange. Raised by `cursorIndex`; the walk never does that
  (42_swap.md R151). Safe. -/
  | negativeCursor
  /-- A completion step with a CMD word that is no command. Raised by `runCommand`; validation rules it
  out (10_state.md R41, R42). Safe. -/
  | noCommand (w : Word)
  deriving DecidableEq, Repr

/-- The reasons a step is refused. -/
inductive Refusal where
  /-- A command that has no meaning yet. Raised by an arm of `exec` only; every command has its meaning,
  so no arm raises it. Safe. -/
  | notModelled (mnemonic : String)
  deriving DecidableEq, Repr

/-- The result of one step. -/
abbrev Result := Host.Outcome State Fault Refusal

/-- STATUS after reset: 0x0000_0000 (R32, R220). -/
def Status.reset : Status := { busy := false, done := false, err := .none, wrbusy := false }

/-- The state after reset of a block with the capacities BUF_MAX = `bufMax` and KEY_MAX = `keyMax`:
CMD, STATUS, LEN and KEYLEN are 0, and no byte of DBUF or KEYMEM has a value (R220, R222). -/
def State.resetWith (bufMax keyMax : Word) : State :=
  { cmd := 0, status := Status.reset, len := 0, keylen := 0, bufcap := bufMax, keycap := keyMax,
    dbuf := [], keymem := [], inputs := [], response := none, draws := 0 }

/-- The machine right after reset (R220), with the capacities of `Config`. -/
def State.reset : State := State.resetWith Config.bufMax Config.keyMax

/-- `CSR.CMD <- w`. -/
def State.setCmd (s : State) (w : Word) : State := { s with cmd := w }

/-- `CSR.STATUS <- x`. -/
def State.setStatus (s : State) (x : Status) : State := { s with status := x }

/-- `CSR.LEN <- n`. -/
def State.setLen (s : State) (n : Word) : State := { s with len := n }

/-- `CSR.KEYLEN <- k`. -/
def State.setKeylen (s : State) (k : Word) : State := { s with keylen := k }

/-- DBUF replaced as a whole. -/
def State.setDbuf (s : State) (m : Memory) : State := { s with dbuf := m }

/-- KEYMEM replaced as a whole. -/
def State.setKeymem (s : State) (m : Memory) : State := { s with keymem := m }

/-- The events to come, replaced. -/
def State.setInputs (s : State) (es : List Event) : State := { s with inputs := es }

/-- The answer of the access just made. -/
def State.setResponse (s : State) (r : Option Response) : State := { s with response := r }

/-- The count of free values drawn. -/
def State.setDraws (s : State) (k : Nat) : State := { s with draws := k }

end Sys2Proof.Machine
end

