-- ==== Sys2Proof/Machine/Flags.lean ====
section
/-! DEFINITION. STATUS: the word a host reads (10_state.md R28 to R32) and every update the spec gives
its fields. The block has no arithmetic flags (R22). -/

namespace Sys2Proof.Machine

/-- The 3-bit code of STATUS.ERR (R30, 60_exceptions.md R190). -/
def ErrCode.code : ErrCode → BitVec 3
  | .none => 0
  | .invalidSelector => 1
  | .emptyKey => 2
  | .lengthRange => 3

/-- One status bit as a one-bit vector. -/
def flagBit (b : Bool) : BitVec 1 := BitVec.ofBool b

/-- The 32-bit value of STATUS: BUSY [0], DONE [1], ERR [4:2], zeros [7:5], WRBUSY [8], zeros [31:9]
(R28 to R32). -/
def Status.word (x : Status) : Word :=
  (0 : BitVec 23) ++ flagBit x.wrbusy ++ (0 : BitVec 3) ++ x.err.code ++ flagBit x.done ++ flagBit x.busy

/-- DONE <- 0 and ERR <- 0, at every accepted issue (R41). -/
def Status.accepted (x : Status) : Status := { x with done := false, err := .none }

/-- ERR <- the code and DONE <- 1, when validation fails (R41, R195). -/
def Status.failed (x : Status) (e : ErrCode) : Status := { x with done := true, err := e }

/-- BUSY <- 1, when validation passes (R41). -/
def Status.started (x : Status) : Status := { x with busy := true }

/-- BUSY <- 0 and DONE <- 1, at completion; ERR stays (R42). -/
def Status.finished (x : Status) : Status := { x with busy := false, done := true }

/-- WRBUSY <- 1, when a host write is dropped (R31, R199). -/
def Status.dropped (x : Status) : Status := { x with wrbusy := true }

/-- A host write of v to STATUS: v[8] = 1 clears WRBUSY, every other bit is ignored (R31, R74). -/
def Status.written (x : Status) (v : Word) : Status := { x with wrbusy := x.wrbusy && !v.getLsbD 8 }

end Sys2Proof.Machine
end

