-- ==== Sys2Proof/Machine/Ops.lean ====
section
/-! DEFINITION. The named operations over memory and registers: one byte of a memory, the start and the
end of a command, the error report (the block's form of taking an exception, 60_exceptions.md R195) and
its clearing (R197), the dropped write, and reset. -/

namespace Sys2Proof.Machine

/-- The byte at an index, or none where nothing has filled it (R222). -/
def Memory.read : Memory → Nat → Option Byte
  | [], _ => none
  | (k, b) :: rest, a => if k = a then some b else Memory.read rest a

/-- The memory with byte `b` at index `a`, kept in rising order of index. -/
def Memory.write : Memory → Nat → Byte → Memory
  | [], a, b => [(a, b)]
  | (k, c) :: rest, a, b =>
    if a < k then (a, b) :: (k, c) :: rest
    else if a = k then (a, b) :: rest
    else (k, c) :: Memory.write rest a b

/-- The indices of the list rise strictly and none is below `lo`. -/
def Memory.risesFrom : Nat → Memory → Bool
  | _, [] => true
  | lo, (k, _) :: rest => decide (lo ≤ k) && Memory.risesFrom (k + 1) rest

/-- The canonical form: indices strictly rising. (An unlisted index holds no value and an entry holds
one, so no entry equals what an unlisted index reads as.) -/
def Memory.wf (m : Memory) : Bool := m.risesFrom 0

/-- An accepted CMD write before its validation: CMD <- w, DONE <- 0, ERR <- 0 (R41). It is also what
ends an earlier error report (R197). -/
def acceptWord (w : Word) (s : State) : State := (s.setCmd w).setStatus s.status.accepted

/-- The error report: ERR <- the code, DONE <- 1, BUSY stays 0, nothing else changes (R195). -/
def reportError (e : ErrCode) (s : State) : State := s.setStatus (s.status.failed e)

/-- BUSY <- 1: the engine now owns DBUF and LEN (R41). -/
def startCommand (s : State) : State := s.setStatus s.status.started

/-- The end of the completion step: BUSY <- 0 and DONE <- 1 (R42). -/
def finish (s : State) : State := s.setStatus s.status.finished

/-- A dropped host write: WRBUSY <- 1 and nothing else (R199). -/
def dropWrite (s : State) : State := s.setStatus s.status.dropped

/-- A completion step from the result of the command's pseudocode: the machine goes on with BUSY and DONE
updated (R42), or stops with the fault of an engine read that has no value (R222). -/
def complete : Except Fault State → Result
  | .ok t => .next (finish t)
  | .error f => .fault f

/-- Reset: every register to its reset value, the command in flight abandoned, DBUF and KEYMEM without a
value (R220 to R222). The capacities are constants of the block, and the events still to come and the
count of drawn values are no state of the block. -/
def applyReset (s : State) : State :=
  ((State.resetWith s.bufcap s.keycap).setInputs s.inputs).setDraws s.draws

end Sys2Proof.Machine
end

