-- ==== Sys2Proof/Machine/Operands.lean ====
section
/-! DEFINITION. The operands of the commands. They are implicit (30_encoding.md R100): the buffer
DBUF[0..LEN−1], the key KEYMEM[0..KEYLEN−1] and two constants. Indices and lengths are mathematical
integers that do not wrap (00_scope.md R14). -/

namespace Sys2Proof.Machine

/-- BLOCK_SIZE (R7). -/
def blockSize : Nat := 16

/-- PAD_BYTE (R8). -/
def padByte : Byte := 0x81

/-- `ceil16(n)`: the least multiple of 16 that is ≥ n, by the formula of R17. -/
def ceil16 (n : Nat) : Nat := n + (blockSize - n % blockSize) % blockSize

/-- `parity(b)`: b mod 2 of the unsigned value (R16). -/
def parity (b : Byte) : Nat := b.toNat % 2

/-- Does the command use the key (R98)? -/
def usesKey : Instr → Bool
  | .benc => true
  | .bdec => true
  | .senc => true
  | .sdec => true
  | .pad => false
  | .depad => false
  | .kxor => true
  | .swap => true

/-- A read of `DBUF[i]` (R18: 0 ≤ i < BUF_MAX). A byte that nothing has filled is a fault (R222). -/
def readData (s : State) (i : Nat) : Except Fault Byte :=
  if i < s.bufcap.toNat then
    match s.dbuf.read i with
    | some b => .ok b
    | none => .error (.unfilledData i)
  else .error (.dataIndex i)

/-- `DBUF[i] <- b` (R18). -/
def writeData (s : State) (i : Nat) (b : Byte) : Except Fault State :=
  if i < s.bufcap.toNat then .ok (s.setDbuf (s.dbuf.write i b)) else .error (.dataIndex i)

/-- A read of `KEYMEM[j]` (R18: 0 ≤ j < KEY_MAX). A byte that nothing has filled is a fault (R222). -/
def readKey (s : State) (j : Nat) : Except Fault Byte :=
  if j < s.keycap.toNat then
    match s.keymem.read j with
    | some b => .ok b
    | none => .error (.unfilledKey j)
  else .error (.keyIndex j)

/-- `K(i)` = `KEYMEM[i mod CSR.KEYLEN]` (R18). `mod 0` is never evaluated (R14). -/
def keyAt (s : State) (i : Nat) : Except Fault Byte :=
  if s.keylen.toNat = 0 then .error .zeroKeyLength else readKey s (i % s.keylen.toNat)

end Sys2Proof.Machine
end

