-- ==== Sys2Proof/Machine/Bus.lean ====
section
/-! DEFINITION. The host's side: the address map (20_memory.md R61), validation and issue (30_encoding.md
R99, 10_state.md R41), the access primitives MemRead and MemWrite (R73, R74), and whose turn it is. -/

namespace Sys2Proof.Machine

/-- The eight control and status registers (R24). -/
inductive Csr where
  | cmd
  | status
  | len
  | keylen
  | bufcap
  | keycap
  | blksz
  | padval
  deriving DecidableEq, Repr

/-- Where one host access goes. -/
inductive Target where
  /-- A control register. -/
  | csr (c : Csr)
  /-- The key window, from KEYMEM[j] on. -/
  | key (j : Nat)
  /-- The data window, from DBUF[i] on. -/
  | data (i : Nat)
  /-- Nowhere: the access gets a bus error (R200). -/
  | nowhere
  deriving DecidableEq, Repr

/-- KEY_BASE (R62). -/
def keyBase : Nat := 0x1000

/-- DATA_BASE (R63). -/
def dataBase : Nat := 0x10000

/-- The number of bytes of an access. -/
def Width.bytes : Width → Nat
  | .one => 1
  | .two => 2
  | .four => 4

/-- The register at a 4-aligned offset below 0x20 (R24). -/
def csrAt : Nat → Option Csr
  | 0x000 => some .cmd
  | 0x004 => some .status
  | 0x008 => some .len
  | 0x00C => some .keylen
  | 0x010 => some .bufcap
  | 0x014 => some .keycap
  | 0x018 => some .blksz
  | 0x01C => some .padval
  | _ => none

/-- The region, size and alignment checks that MemRead and MemWrite share (R64, R67 to R69, R73, R74).
They look at the offset and the size alone, before BUSY is looked at (R201). -/
def target (s : State) (addr n : Nat) : Target :=
  if addr < 0x20 then
    if n ≠ 4 ∨ addr % 4 ≠ 0 then .nowhere
    else
      match csrAt addr with
      | some c => .csr c
      | none => .nowhere
  else if keyBase ≤ addr ∧ addr + n ≤ keyBase + s.keycap.toNat then
    if addr % n ≠ 0 then .nowhere else .key (addr - keyBase)
  else if dataBase ≤ addr ∧ addr + n ≤ dataBase + s.bufcap.toNat then
    if addr % n ≠ 0 then .nowhere else .data (addr - dataBase)
  else .nowhere

/-- The value of a control register (R26 to R38). BLKSZ and PADVAL are hard-wired: 16 and 0x81. -/
def csrValue (s : State) : Csr → Word
  | .cmd => s.cmd
  | .status => s.status.word
  | .len => s.len
  | .keylen => s.keylen
  | .bufcap => s.bufcap
  | .keycap => s.keycap
  | .blksz => 0x00000010
  | .padval => 0x00000081

/-- n bytes from index a on, little-endian: the byte at a in bits [7:0], zeros above the last (R66). -/
def gather (rd : Nat → Except Fault Byte) : Nat → Nat → Except Fault Word
  | 0, _ => .ok 0
  | n + 1, a => do
    let b ← rd a
    let rest ← gather rd n (a + 1)
    .ok (rest <<< 8 ||| b.setWidth 32)

/-- `for k in 0..n-1: mem[a+k] <- v[8k+7:8k]` (R74). -/
def scatter : Nat → Nat → Word → Memory → Memory
  | 0, _, _, m => m
  | n + 1, a, v, m => scatter n (a + 1) (v >>> 8) (m.write a (v.setWidth 8))

/-- The low 8n bits of a word, zero-extended. -/
def lowBytes (n : Nat) (v : Word) : Word := (v.setWidth (8 * n)).setWidth 32

/-- `Validate(w)` on the LEN and KEYLEN of the moment (30_encoding.md R99), its checks in the order
written; the first that fails is reported (60_exceptions.md R194). -/
def validate (w : Word) (s : State) : ErrCode :=
  match decode w with
  | .error _ => .invalidSelector
  | .ok i =>
    if s.bufcap.toNat < s.len.toNat then .lengthRange
    else if usesKey i = true ∧ s.keycap.toNat < s.keylen.toNat then .lengthRange
    else if usesKey i = true ∧ s.keylen.toNat = 0 then .emptyKey
    else .none

/-- A write of w to CMD (10_state.md R41): dropped while BUSY = 1; else accepted, and then reported as an
error or started. -/
def issue (w : Word) (s : State) : State :=
  if s.status.busy = true then dropWrite s
  else if validate w s = .none then startCommand (acceptWord w s)
  else reportError (validate w s) (acceptWord w s)

/-- A write that is dropped while BUSY = 1 and has its effect otherwise (R41, R199). -/
def unlessBusy (s : State) (effect : State) : State := if s.status.busy = true then dropWrite s else effect

/-- A write of v to a control register (R74). The four read-only ones accept it without effect (R25). -/
def csrWrite (s : State) (v : Word) : Csr → State
  | .cmd => issue v s
  | .status => s.setStatus (s.status.written v)
  | .len => unlessBusy s (s.setLen v)
  | .keylen => unlessBusy s (s.setKeylen v)
  | .bufcap => s
  | .keycap => s
  | .blksz => s
  | .padval => s

/-- The answer to a read whose value is exact, or the fault of a byte that has no value. -/
def answer (s : State) : Except Fault Word → Result
  | .ok v => .next (s.setResponse (some (.data v)))
  | .error f => .fault f

/-- The answer to a read that returns any value of n bytes (R73): a fresh free value. -/
def answerFree (s : State) (n : Nat) : State :=
  (s.setResponse (some (.data (lowBytes n (Config.freeRead s.draws))))).setDraws (s.draws + 1)

/-- `MemRead(addr, n)` (R73). -/
def memRead (s : State) (addr : Word) (w : Width) : Result :=
  match target s addr.toNat w.bytes with
  | .csr c =>
    if c = .len ∧ s.status.busy = true then .next (answerFree s 4) else answer s (.ok (csrValue s c))
  | .key j => answer s (gather (readKey s) w.bytes j)
  | .data i =>
    if s.status.busy = true then .next (answerFree s w.bytes) else answer s (gather (readData s) w.bytes i)
  | .nowhere => .next (s.setResponse (some (.busError addr)))

/-- `MemWrite(addr, n, v)` (R74). A write that gets a bus error changes nothing and does not set WRBUSY. -/
def memWrite (s : State) (addr : Word) (w : Width) (v : Word) : State :=
  match target s addr.toNat w.bytes with
  | .csr c => (csrWrite s v c).setResponse (some .okay)
  | .key j => (unlessBusy s (s.setKeymem (scatter w.bytes j v s.keymem))).setResponse (some .okay)
  | .data i => (unlessBusy s (s.setDbuf (scatter w.bytes i v s.dbuf))).setResponse (some .okay)
  | .nowhere => s.setResponse (some (.busError addr))

/-- What the next step does: the head of the events to come, taken off the list. With none left the
engine has the turn, so that a command in flight always completes (10_state.md R43, log entry 5). -/
def nextTurn (s : State) : Event × State :=
  match s.inputs with
  | [] => (.engine, s)
  | e :: rest => (e, s.setInputs rest)

end Sys2Proof.Machine
end

