-- ==== Sys2Proof/Machine/KeyXor.lean ====
section
/-! DEFINITION. The cyclic-key XOR datapath (41_key_xor.md): the function of R140 and the command KXOR
(R141). -/

namespace Sys2Proof.Machine

/-- The loop of R140 for k positions from i on: `DBUF[i] <- DBUF[i] XOR K(i)`. -/
def keyXorFrom : Nat → Nat → State → Except Fault State
  | 0, _, s => .ok s
  | k + 1, i, s => do
    let b ← readData s i
    let key ← keyAt s i
    let t ← writeData s i (b ^^^ key)
    keyXorFrom k (i + 1) t

/-- `KeyXor()` (R140). -/
def keyXor (s : State) : Except Fault State := keyXorFrom s.len.toNat 0 s

/-- KXOR (R141). -/
def execKxor (s : State) : Result := complete (keyXor s)

end Sys2Proof.Machine
end

