-- ==== Sys2Proof/Machine/Padding.lean ====
section
/-! DEFINITION. The pad and depad unit (40_padding.md): the functions of R120 and R122 and the commands
PAD (R121) and DEPAD (R123). -/

namespace Sys2Proof.Machine

/-- `for j in j0..j0+k-1: DBUF[j] <- 0x81`, the loop of R120. -/
def padFill : Nat → Nat → State → Except Fault State
  | 0, _, s => .ok s
  | k + 1, j, s => do
    let t ← writeData s j padByte
    padFill k (j + 1) t

/-- `Pad()` (R120): fill DBUF[n..m−1] with 0x81 and set LEN to m = ceil16(n). -/
def pad (s : State) : Except Fault State := do
  let n := s.len.toNat
  let m := ceil16 n
  let t ← padFill (m - n) n s
  .ok (t.setLen (BitVec.ofNat 32 m))

/-- The loop of R122 from length n: step back while the last byte is 0x81. -/
def depadLength (s : State) : Nat → Except Fault Nat
  | 0 => .ok 0
  | n + 1 => do
    let b ← readData s n
    if b = padByte then depadLength s n else .ok (n + 1)

/-- `Depad()` (R122): only LEN changes. -/
def depad (s : State) : Except Fault State := do
  let n ← depadLength s s.len.toNat
  .ok (s.setLen (BitVec.ofNat 32 n))

/-- PAD (R121). -/
def execPad (s : State) : Result := complete (pad s)

/-- DEPAD (R123). -/
def execDepad (s : State) : Result := complete (depad s)

end Sys2Proof.Machine
end

