-- ==== Sys2Proof/Machine/Swap.lean ====
section
/-! DEFINITION. The position-swap permutation network (42_swap.md): the sequential walk of R150 and the
command SWAP (R155). The cursors are working variables of the step, not state (R157). -/

namespace Sys2Proof.Machine

/-- A cursor as an index of DBUF. Cursors are integers (R150: `end` can be −1); at an exchange none is
negative (R151). -/
def cursorIndex (c : Int) : Except Fault Nat := if c < 0 then .error .negativeCursor else .ok c.toNat

/-- The exchange of R150: `t <- DBUF[start]`, `DBUF[start] <- DBUF[end]`, `DBUF[end] <- t`. -/
def exchange (s : State) (start stop : Int) : Except Fault State := do
  let a ← cursorIndex start
  let b ← cursorIndex stop
  let t ← readData s a
  let u ← readData s b
  let s1 ← writeData s a u
  writeData s1 b t

/-- Steps 1 and 2 of the loop body: exchange if the parity of the key byte is 1 (R150). -/
def exchangeIfOdd (key : Byte) (s : State) (start stop : Int) : Except Fault State :=
  if parity key = 1 then exchange s start stop else .ok s

/-- The loop of R150 over a buffer of n bytes, for k iterations from position i on, with the cursors
`start` and `stop` (the spec's `end`). The reset test comes after the advance in every iteration. -/
def swapFrom (n : Nat) : Nat → Nat → Int → Int → State → Except Fault State
  | 0, _, _, _, s => .ok s
  | k + 1, i, start, stop, s => do
    let key ← keyAt s i
    let t ← exchangeIfOdd key s start stop
    if start + 1 ≥ stop - 1 then swapFrom n k (i + 1) 0 (n - 1) t
    else swapFrom n k (i + 1) (start + 1) (stop - 1) t

/-- `Swap()` (R150). -/
def swap (s : State) : Except Fault State := swapFrom s.len.toNat s.len.toNat 0 0 (s.len.toNat - 1) s

/-- SWAP (R155). -/
def execSwap (s : State) : Result := complete (swap s)

end Sys2Proof.Machine
end

