-- ==== Sys2Proof/Machine/Pipelines.lean ====
section
/-! DEFINITION. The four pipelines (43_pipelines.md): the stage chains of R170, R172 and R174 and the
commands BENC (R171), BDEC (R173), SENC (R175) and SDEC (R176). -/

namespace Sys2Proof.Machine

/-- `BlockEncrypt()` (R170): Pad, KeyXor, Swap, the last two over the padded length. -/
def blockEncrypt (s : State) : Except Fault State := do
  let padded ← pad s
  let mixed ← keyXor padded
  swap mixed

/-- `BlockDecrypt()` (R172): Swap, KeyXor, Depad. -/
def blockDecrypt (s : State) : Except Fault State := do
  let unswapped ← swap s
  let plain ← keyXor unswapped
  depad plain

/-- `StreamXor()` (R174): KeyXor alone. -/
def streamXor (s : State) : Except Fault State := keyXor s

/-- BENC (R171). -/
def execBenc (s : State) : Result := complete (blockEncrypt s)

/-- BDEC (R173). A LEN that is not a multiple of 16 is no error. -/
def execBdec (s : State) : Result := complete (blockDecrypt s)

/-- SENC (R175). -/
def execSenc (s : State) : Result := complete (streamXor s)

/-- SDEC (R176): the same pseudocode as SENC. -/
def execSdec (s : State) : Result := complete (streamXor s)

end Sys2Proof.Machine
end

