-- ==== Sys2Proof/Machine/Dispatch.lean ====
section
/-! DEFINITION. exec: one arm per command, each one call of its meaning. exec is the completion step of a
command in flight (10_state.md R42). -/

namespace Sys2Proof.Machine

def exec (i : Instr) (s : State) : Host.Outcome State Fault Refusal :=
  match i with
  | .benc => Sys2Proof.Machine.execBenc s
  | .bdec => Sys2Proof.Machine.execBdec s
  | .senc => Sys2Proof.Machine.execSenc s
  | .sdec => Sys2Proof.Machine.execSdec s
  | .pad => Sys2Proof.Machine.execPad s
  | .depad => Sys2Proof.Machine.execDepad s
  | .kxor => Sys2Proof.Machine.execKxor s
  | .swap => Sys2Proof.Machine.execSwap s

end Sys2Proof.Machine
end

