-- ==== Sys2Proof/Machine/Engine.lean ====
section
/-! DEFINITION. The engine's turn: the completion step of the command that CMD holds (10_state.md R42). -/

namespace Sys2Proof.Machine

/-- The completion step: run the command that CMD decodes to (R42). -/
def runCommand (s : State) : Result :=
  match decode s.cmd with
  | .ok i => exec i s
  | .error _ => .fault (.noCommand s.cmd)

/-- The engine's turn. Its step is enabled exactly when BUSY = 1 (R42); otherwise the block is idle and
keeps all its state (60_exceptions.md R209). -/
def engineTurn (s : State) : Result :=
  if s.status.busy = true then runCommand s else .next s

end Sys2Proof.Machine
end

