-- ==== Sys2Proof/Machine/Step.lean ====
section
/-! DEFINITION. One step of the machine: the engine's completion step (10_state.md R42), one host access
(20_memory.md R73, R74), or reset (70_reset_and_hazards.md R220), whichever has the turn. -/

namespace Sys2Proof.Machine

/-- One step. -/
def step (s : State) : Host.Outcome State Fault Refusal :=
  match nextTurn s with
  | (.engine, t) => engineTurn t
  | (.read addr n, t) => memRead t addr n
  | (.write addr n v, t) => .next (memWrite t addr n v)
  | (.reset, t) => .next (applyReset t)

/-- s with the word w in flight and the engine's turn next, so that the next step is the completion step
of w: what an accepted issue of w leaves (R41), without its validation. Log entry 6. -/
def State.withFetchWord (s : State) (nbits w : Nat) : State :=
  (startCommand (acceptWord (BitVec.ofNat 32 (w % 2 ^ nbits)) s)).setInputs (.engine :: s.inputs)

end Sys2Proof.Machine
end

