-- ==== Sys2Proof/Machine/Notation.lean ====
section
/-! DEFINITION. The notation for host programs (30_encoding.md R102 to R104): each line is one event, each
pseudo-instruction a list of events. The host's own branches run in the host, not in the block (R103), so a
`wait` is given with the number of polls its loop makes before the engine's turn (10_state.md R43). -/

namespace Sys2Proof.Machine

/-- The mnemonic of a command (R102). -/
def mnemonic : Instr → String
  | .benc => "BENC"
  | .bdec => "BDEC"
  | .senc => "SENC"
  | .sdec => "SDEC"
  | .pad => "PAD"
  | .depad => "DEPAD"
  | .kxor => "KXOR"
  | .swap => "SWAP"

/-- The offset name of a control register (R103). -/
def csrOffset : Csr → Word
  | .cmd => 0x000
  | .status => 0x004
  | .len => 0x008
  | .keylen => 0x00C
  | .bufcap => 0x010
  | .keycap => 0x014
  | .blksz => 0x018
  | .padval => 0x01C

/-- The bus address of an offset (R11). Every event carries the offset. -/
def busAddress (off : Word) : Nat := Config.base + off.toNat

/-- `KEY+j` (R103). -/
def keyOffset (j : Nat) : Word := BitVec.ofNat 32 (keyBase + j)

/-- `DATA+i` (R103). -/
def dataOffset (i : Nat) : Word := BitVec.ofNat 32 (dataBase + i)

/-- `sw OFF, V`. -/
def sw (off v : Word) : Event := .write off .four v

/-- `sh OFF, V`. -/
def sh (off v : Word) : Event := .write off .two v

/-- `sb OFF, V`. -/
def sb (off v : Word) : Event := .write off .one v

/-- `lw OFF`. -/
def lw (off : Word) : Event := .read off .four

/-- `lh OFF`. -/
def lh (off : Word) : Event := .read off .two

/-- `lb OFF`. -/
def lb (off : Word) : Event := .read off .one

/-- `issue M` (R104). -/
def issueCommand (i : Instr) : Event := sw (csrOffset .cmd) (encode i)

/-- `wait` (R104) in a run where `polls` reads of STATUS find BUSY = 1 before the engine's turn. -/
def waitDone (polls : Nat) : List Event :=
  List.replicate polls (lw (csrOffset .status)) ++ [.engine, lw (csrOffset .status)]

/-- `run M` (R104). -/
def runToEnd (i : Instr) (polls : Nat) : List Event := issueCommand i :: waitDone polls

/-- One `sb` a byte, to the offsets `place 0`, `place 1`, ... -/
def storeBytes (place : Nat → Word) (bytes : List Byte) : List Event :=
  bytes.mapIdx (fun j b => sb (place j) (b.setWidth 32))

/-- `loadkey b0, ..., b(k−1)` (R104). -/
def loadKey (key : List Byte) : List Event :=
  storeBytes keyOffset key ++ [sw (csrOffset .keylen) (BitVec.ofNat 32 key.length)]

/-- `loaddata b0, ..., b(n−1)` (R104). -/
def loadData (bytes : List Byte) : List Event :=
  storeBytes dataOffset bytes ++ [sw (csrOffset .len) (BitVec.ofNat 32 bytes.length)]

/-- `clrwrbusy` (R104). -/
def clrwrbusy : Event := sw (csrOffset .status) 0x00000100

end Sys2Proof.Machine
end

