-- ==== Sys2Proof/Safety.lean ====
section
/-! DEFINITION. The terms the claims are written in: the invariant that every step keeps, what it means for
the operands of a command to be filled, and the source's contracts as functions on byte sequences (00_scope.md
R19), which the machine's in-place datapath is compared with. -/

namespace Sys2Proof.Machine

/-- Every index the memory lists is below the capacity. -/
def Memory.within (cap : Nat) (m : Memory) : Bool := m.all (fun c => decide (c.1 < cap))

/-- The capacities are legal: BUF_MAX a multiple of 16 with 16 ≤ BUF_MAX ≤ 0xFFFF_0000, and
1 ≤ KEY_MAX ≤ 4096 (R9, R10). -/
def capsLegal (s : State) : Bool :=
  decide (s.bufcap.toNat % 16 = 0) && decide (16 ≤ s.bufcap.toNat) && decide (s.bufcap.toNat ≤ 0xFFFF0000) &&
    decide (1 ≤ s.keycap.toNat) && decide (s.keycap.toNat ≤ 4096)

/-- Both memories are in canonical form and hold bytes only where the block has them (R39). -/
def memoriesLegal (s : State) : Bool :=
  s.dbuf.wf && s.dbuf.within s.bufcap.toNat && s.keymem.wf && s.keymem.within s.keycap.toNat

/-- A command in flight is one that passes validation now, with DONE = 0 and ERR = 0 (R28, R41, R82). -/
def flightLegal (s : State) : Bool :=
  !s.status.busy || (decide (validate s.cmd s = .none) && !s.status.done && decide (s.status.err = .none))

/-- An error code is shown only with DONE = 1 (R29, R41). -/
def reportLegal (s : State) : Bool := decide (s.status.err = .none) || s.status.done

/-- What holds at reset and after every step. -/
abbrev State.Inv (s : State) : Prop :=
  capsLegal s = true ∧ memoriesLegal s = true ∧ flightLegal s = true ∧ reportLegal s = true

/-- Every byte DBUF[0..n−1] has been filled since reset. -/
abbrev dataFilled (s : State) (n : Nat) : Prop := ∀ i < n, (s.dbuf.read i).isSome = true

/-- Every key byte K(0), ..., K(n−1) has been filled since reset. -/
abbrev keyFilled (s : State) (n : Nat) : Prop := ∀ i < n, (s.keymem.read (i % s.keylen.toNat)).isSome = true

/-- The number of buffer positions whose key byte a command uses: the padded length for BENC (R170), LEN
for the other key-using commands, none for PAD and DEPAD (R98). -/
def keyPositions (i : Instr) (s : State) : Nat :=
  match i with
  | .benc => ceil16 s.len.toNat
  | .bdec => s.len.toNat
  | .senc => s.len.toNat
  | .sdec => s.len.toNat
  | .pad => 0
  | .depad => 0
  | .kxor => s.len.toNat
  | .swap => s.len.toNat

/-- The host has done its duty for command `i` (70_reset_and_hazards.md R224): the command passes validation
and every byte it can read has been filled. -/
abbrev Ready (i : Instr) (s : State) : Prop :=
  validate (encode i) s = .none ∧ dataFilled s s.len.toNat ∧ keyFilled s (keyPositions i s)

/-- DBUF[a] XOR K(a) (R140), where both bytes have been filled. -/
def xorAt (s : State) (a : Nat) : Option Byte :=
  match s.dbuf.read a, s.keymem.read (a % s.keylen.toNat) with
  | some b, some key => some (b ^^^ key)
  | _, _ => none

/-- parity(K(i)) (R16, R18); 0 for a key byte that nothing has filled. -/
def keyParityAt (s : State) (i : Nat) : Nat :=
  match s.keymem.read (i % s.keylen.toNat) with
  | some b => parity b
  | none => 0

/-- c_p of 42_swap.md R153 for a buffer of n bytes: the XOR of parity(K(i)) over the iterations i < n that
test mirror pair p, those with i mod floor(n/2) = p. -/
def pairExchanged (s : State) (n p : Nat) : Bool :=
  decide ((((List.range n).filter (fun i => decide (i % (n / 2) = p))).map (keyParityAt s)).sum % 2 = 1)

/-- The mirror pair of position a in a buffer of n bytes (R152). -/
def mirrorPair (n a : Nat) : Nat := min a (n - 1 - a)

/-- Where the byte that ends up at position a came from, by the closed form R153. -/
def swapSource (s : State) (n a : Nat) : Nat :=
  if a < n ∧ mirrorPair n a < n / 2 ∧ pairExchanged s n (mirrorPair n a) = true then n - 1 - a else a

/-- An access of a control register: 4 bytes at a 4-aligned offset below 0x20 (R67). -/
abbrev CsrAccess (addr : Word) (n : Width) : Prop := n = .four ∧ addr.toNat < 0x20 ∧ addr.toNat % 4 = 0

/-- An access wholly inside the key window, aligned to its size (R62, R68). -/
abbrev KeyAccess (s : State) (addr : Word) (n : Width) : Prop :=
  0x1000 ≤ addr.toNat ∧ addr.toNat + n.bytes ≤ 0x1000 + s.keycap.toNat ∧ addr.toNat % n.bytes = 0

/-- An access wholly inside the data window, aligned to its size (R63, R68). -/
abbrev DataAccess (s : State) (addr : Word) (n : Width) : Prop :=
  0x10000 ≤ addr.toNat ∧ addr.toNat + n.bytes ≤ 0x10000 + s.bufcap.toNat ∧ addr.toNat % n.bytes = 0

/-- The engine has the turn: it is next in the order of events, or no event is left (R43). -/
abbrev EngineTurn (s : State) : Prop := s.inputs = [] ∨ s.inputs.head? = some .engine

/-- DBUF[0..LEN−1] is the byte sequence p (R19). -/
abbrev HoldsBuffer (s : State) (p : List Byte) : Prop :=
  s.len.toNat = p.length ∧ ∀ i < p.length, s.dbuf.read i = p[i]?

/-- KEYMEM[0..KEYLEN−1] is the byte sequence k (R19). -/
abbrev HoldsKey (s : State) (k : List Byte) : Prop :=
  s.keylen.toNat = k.length ∧ ∀ j < k.length, s.keymem.read j = k[j]?

end Sys2Proof.Machine

namespace Sys2Proof.Source

/-- `pad(buffer, 16)`: append 0x81 until the length is a multiple of 16 (R120). -/
def pad (p : List Byte) : List Byte := p ++ List.replicate ((16 - p.length % 16) % 16) 0x81

/-- `depad`: remove the last byte while it is 0x81 (R122). -/
def depad (p : List Byte) : List Byte := (p.reverse.dropWhile (fun b => b == 0x81)).reverse

/-- key[i mod len(key)]. -/
def keyByte (k : List Byte) (i : Nat) : Byte := k.getD (i % k.length) 0

/-- `xorWithKey(buffer, key)`: buffer'[i] = buffer[i] XOR key[i mod len(key)] (R140). -/
def xorWithKey (p k : List Byte) : List Byte := p.mapIdx (fun i b => b ^^^ keyByte k i)

/-- Is mirror pair q of an n-byte buffer exchanged (c_q of R153)? -/
def exchanged (k : List Byte) (n q : Nat) : Bool :=
  decide ((((List.range n).filter (fun i => decide (i % (n / 2) = q))).map (fun i => (keyByte k i).toNat % 2)).sum % 2 = 1)

/-- `swap(buffer, key)` in the closed form of R153: each mirror pair is exchanged or left alone. -/
def swap (p k : List Byte) : List Byte :=
  p.mapIdx (fun a b =>
    if min a (p.length - 1 - a) < p.length / 2 ∧ exchanged k p.length (min a (p.length - 1 - a)) = true
    then p.getD (p.length - 1 - a) b else b)

/-- Block-Encrypt: pad, xorWithKey, swap (R170). -/
def blockEncrypt (p k : List Byte) : List Byte := swap (xorWithKey (pad p) k) k

/-- Block-Decrypt: swap, xorWithKey, depad (R172). -/
def blockDecrypt (c k : List Byte) : List Byte := depad (xorWithKey (swap c k) k)

end Sys2Proof.Source
end

