-- ==== Sys2Proof/Certificates/Slice0/Obligations.lean ====
section
/-! DEFINITION. The obligations: what is claimed of the model, each a proposition for the provers. The status
after a completion is always written out: BUSY <- 0 and DONE <- 1, ERR and WRBUSY as they were (10_state.md
R42). -/

open Sys2Proof Sys2Proof.Machine

/-- Decoding the command word of a command gives that command back (30_encoding.md section 2). -/
def Obligations.DecodeOfEncodeIsIdentity : Prop :=
  ∀ i : Instr, decode (encode i) = .ok i

/-- The eight words of the opcode map, written out bit by bit, decode to their commands (30_encoding.md section 2). -/
def Obligations.TableWordsDecode : Prop :=
  decode 0b00000000000000000000000000010000#32 = .ok .benc ∧
  decode 0b00000000000000000000000000010100#32 = .ok .bdec ∧
  decode 0b00000000000000000000000000010001#32 = .ok .senc ∧
  decode 0b00000000000000000000000000010101#32 = .ok .sdec ∧
  decode 0b00000000000000000000000000100000#32 = .ok .pad ∧
  decode 0b00000000000000000000000000110000#32 = .ok .depad ∧
  decode 0b00000000000000000000000001000000#32 = .ok .kxor ∧
  decode 0b00000000000000000000000001010000#32 = .ok .swap

/-- A word is INVALID_SELECTOR exactly when it is none of the eight command words (R97). -/
def Obligations.InvalidSelectorExactlyOutsideTheTable : Prop :=
  (∀ i j : Instr, encode i = encode j → i = j) ∧
  (∀ (w : Word) (s : State), validate w s = .invalidSelector ↔ ∀ i, w ≠ encode i) ∧
  (∀ (w : Word) (i : Instr), decode w = .ok i ↔ w = encode i) ∧
  ∀ s : State, validate 0 s = .invalidSelector

/-- INVALID_SELECTOR is exactly a bad FAM, MODE or OP, a stage command with a selector, or a reserved bit (R191). -/
def Obligations.FieldRulesMatchTheTable : Prop :=
  ∀ (w : Word) (s : State),
    (validate w s = .invalidSelector ↔ ∀ i, w ≠ encode i) ∧
    ((∀ i, w ≠ encode i) ↔
      2 ≤ (w.extractLsb' 0 2).toNat ∨ 2 ≤ (w.extractLsb' 2 2).toNat ∨
        (w.extractLsb' 4 4).toNat = 0 ∨ 6 ≤ (w.extractLsb' 4 4).toNat ∨
        ((w.extractLsb' 4 4).toNat ≠ 1 ∧ (w.extractLsb' 0 4).toNat ≠ 0) ∨ (w.extractLsb' 8 24).toNat ≠ 0)

/-- Validation checks the selector, then LEN, then KEYLEN against its capacity, then KEYLEN = 0, and reads no data (R98, R99). -/
def Obligations.ValidationReportsTheFirstFailure : Prop :=
  (∀ (w : Word) (s : State), (∀ i, w ≠ encode i) → validate w s = .invalidSelector) ∧
  (∀ (i : Instr) (s : State), validate (encode i) s =
    if s.len.toNat > s.bufcap.toNat then .lengthRange
    else if (i ≠ .pad ∧ i ≠ .depad) ∧ s.keylen.toNat > s.keycap.toNat then .lengthRange
    else if (i ≠ .pad ∧ i ≠ .depad) ∧ s.keylen.toNat = 0 then .emptyKey
    else .none) ∧
  ∀ (w : Word) (s : State) (d k : Memory), validate w { s with dbuf := d, keymem := k } = validate w s

/-- A step runs the command in flight on the engine's turn, and serves the host access or reset that is next
(10_state.md section 5, 20_memory.md section 5). The order of the events, and that the engine has the turn
when none is left, are the model's own schedule (log entries 2 and 5). -/
def Obligations.StepFollowsTheSchedule : Prop :=
  (∀ (s : State) (i : Instr), EngineTurn s → s.status.busy = true → decode s.cmd = .ok i →
    step s = exec i { s with inputs := s.inputs.tail }) ∧
  (∀ s : State, EngineTurn s → s.status.busy = false → step s = .next { s with inputs := s.inputs.tail }) ∧
  (∀ (s : State) (addr : Word) (n : Width) (rest : List Event), s.inputs = .read addr n :: rest →
    step s = memRead { s with inputs := rest } addr n) ∧
  (∀ (s : State) (addr : Word) (n : Width) (v : Word) (rest : List Event), s.inputs = .write addr n v :: rest →
    step s = .next (memWrite { s with inputs := rest } addr n v)) ∧
  ∀ (s : State) (rest : List Event), s.inputs = .reset :: rest → step s = .next (applyReset { s with inputs := rest })

/-- A command word put in flight runs as that command in the very next step (10_state.md section 5). -/
def Obligations.FetchWordRunsTheCommand : Prop :=
  ∀ (s : State) (i : Instr), step (s.withFetchWord 32 (encode i).toNat) =
    exec i { s with cmd := encode i, status := { s.status with busy := true, done := false, err := .none } }

/-- A CMD write that passes validation with BUSY = 0 latches the word and sets BUSY, and changes nothing else (10_state.md section 5). -/
def Obligations.AcceptedIssueStartsTheCommand : Prop :=
  ∀ (s : State) (w : Word) (rest : List Event), s.inputs = .write 0 .four w :: rest → s.status.busy = false →
    validate w s = .none →
    step s = .next { s with cmd := w, status := { s.status with busy := true, done := false, err := .none },
                            inputs := rest, response := some .okay }

/-- A CMD write that fails validation sets CMD, ERR and DONE and changes nothing else (R195). -/
def Obligations.RejectedIssueOnlyReports : Prop :=
  ∀ (s : State) (w : Word) (rest : List Event), s.inputs = .write 0 .four w :: rest → s.status.busy = false →
    validate w s ≠ .none →
    step s = .next { s with cmd := w, status := { busy := false, done := true, err := validate w s, wrbusy := s.status.wrbusy },
                            inputs := rest, response := some .okay }

/-- While BUSY = 1 a write to CMD, LEN, KEYLEN or a window sets WRBUSY and changes nothing else (R199). -/
def Obligations.HostWritesAreDroppedWhileBusy : Prop :=
  ∀ (s : State) (addr : Word) (n : Width) (v : Word) (rest : List Event), s.inputs = .write addr n v :: rest →
    capsLegal s = true → s.status.busy = true →
    ((n = .four ∧ (addr = 0x000 ∨ addr = 0x008 ∨ addr = 0x00C)) ∨ KeyAccess s addr n ∨ DataAccess s addr n) →
    step s = .next { s with status := { s.status with wrbusy := true }, inputs := rest, response := some .okay }

/-- After reset a key-using command fails with EMPTY_KEY until KEYLEN is written; PAD and DEPAD complete and
change nothing (70_reset_and_hazards.md section 1). -/
def Obligations.KeyCommandsFailAfterReset : Prop :=
  (∀ (s : State) (i : Instr) (rest : List Event), s.inputs = .write 0 .four (encode i) :: rest → s.status.busy = false →
    s.keylen = 0 → s.len.toNat ≤ s.bufcap.toNat → i ≠ .pad → i ≠ .depad →
    step s = .next { s with cmd := encode i,
                            status := { busy := false, done := true, err := .emptyKey, wrbusy := s.status.wrbusy },
                            inputs := rest, response := some .okay }) ∧
  State.reset.keylen = 0 ∧
  ∀ i : Instr, i = .pad ∨ i = .depad →
    ∃ t, step { State.reset with inputs := [.write 0 .four (encode i), .engine] } = .next t ∧
      step t = .next { State.reset with cmd := encode i,
                                        status := { busy := false, done := true, err := .none, wrbusy := false },
                                        response := some .okay }

/-- CMD changes only by an accepted host write of the new word, or by reset (10_state.md section 3). -/
def Obligations.CmdChangesOnlyByAnAcceptedWrite : Prop :=
  ∀ s t : State, step s = .next t → t.cmd ≠ s.cmd →
    (s.status.busy = false ∧ s.inputs.head? = some (.write 0 .four t.cmd)) ∨
      (s.inputs.head? = some .reset ∧ t.cmd = 0)

/-- The error report (ERR, and DONE once set) changes only at an accepted CMD write or at reset (60_exceptions.md section 3). -/
def Obligations.ErrorReportLastsUntilTheNextIssue : Prop :=
  ∀ s t : State, step s = .next t → (t.status.err ≠ s.status.err ∨ (s.status.done = true ∧ t.status.done = false)) →
    (s.status.busy = false ∧ ∃ w, s.inputs.head? = some (.write 0 .four w)) ∨ s.inputs.head? = some .reset

/-- BUSY is set only by an accepted valid issue and cleared only by the engine's completion or by reset (10_state.md section 3). -/
def Obligations.BusySpansIssueToCompletion : Prop :=
  ∀ s t : State, step s = .next t →
    (s.status.busy = false → t.status.busy = true →
      ∃ w, s.inputs.head? = some (.write 0 .four w) ∧ validate w s = .none ∧ t.cmd = w) ∧
    (s.status.busy = true → t.status.busy = false →
      (EngineTurn s ∧ t.status.done = true) ∨ s.inputs.head? = some .reset)

/-- WRBUSY is set only by a host write while BUSY = 1 and cleared only by a STATUS write with bit 8 set, or by
reset (10_state.md section 3, 60_exceptions.md section 3). -/
def Obligations.WrbusyIsSticky : Prop :=
  ∀ s t : State, step s = .next t →
    (s.status.wrbusy = true → t.status.wrbusy = false →
      (∃ v : Word, s.inputs.head? = some (.write 4 .four v) ∧ v.getLsbD 8 = true) ∨ s.inputs.head? = some .reset) ∧
    (s.status.wrbusy = false → t.status.wrbusy = true →
      s.status.busy = true ∧ ∃ addr n v, s.inputs.head? = some (.write addr n v))

/-- While BUSY = 1 no host access changes CMD, LEN, KEYLEN, DBUF, KEYMEM, BUSY, DONE or ERR (20_memory.md section 5, 70_reset_and_hazards.md section 3). -/
def Obligations.BusyProtectsTheOperands : Prop :=
  ∀ s t : State, s.status.busy = true → step s = .next t →
    ((∃ addr n, s.inputs.head? = some (.read addr n)) ∨ ∃ addr n v, s.inputs.head? = some (.write addr n v)) →
    t = { s with status := { s.status with wrbusy := t.status.wrbusy }, inputs := s.inputs.tail,
                 response := t.response, draws := t.draws }

/-- STATUS reads BUSY in bit 0, DONE in bit 1, ERR in bits [4:2], WRBUSY in bit 8 and zeros elsewhere (10_state.md section 3). -/
def Obligations.StatusWordLayout : Prop :=
  ∀ x : Status, x.word.getLsbD 0 = x.busy ∧ x.word.getLsbD 1 = x.done ∧ x.word.getLsbD 8 = x.wrbusy ∧
    x.word.extractLsb' 5 3 = 0 ∧ x.word.extractLsb' 9 23 = 0 ∧
    x.word.extractLsb' 2 3 =
      (match x.err with
        | .none => 0
        | .invalidSelector => 1
        | .emptyKey => 2
        | .lengthRange => 3)

/-- A 4-byte read of a control register answers its value, and changes nothing; LEN is exact only with BUSY =
0 (10_state.md section 3, 20_memory.md section 4). -/
def Obligations.ControlRegistersReadExactly : Prop :=
  ∀ (s : State) (off v : Word) (rest : List Event), s.inputs = .read off .four :: rest →
    ((off, v) ∈ [((0x000 : Word), s.cmd), (0x004, s.status.word), (0x00C, s.keylen), (0x010, s.bufcap), (0x014, s.keycap),
        (0x018, 0x00000010), (0x01C, 0x00000081)] ∨ (off = 0x008 ∧ v = s.len ∧ s.status.busy = false)) →
    step s = .next { s with inputs := rest, response := some (.data v) }

/-- While BUSY = 1 a read of LEN or of the data window answers a free value of its width and never faults (20_memory.md section 4). -/
def Obligations.ReadsInFlightAnswerAFreeValue : Prop :=
  ∀ (s : State) (addr : Word) (n : Width) (rest : List Event), s.inputs = .read addr n :: rest →
    capsLegal s = true → s.status.busy = true → ((n = .four ∧ addr = 0x008) ∨ DataAccess s addr n) →
    step s = .next { s with inputs := rest, draws := s.draws + 1,
                            response := some (.data (((Config.freeRead s.draws).setWidth (8 * n.bytes)).setWidth 32)) }

/-- A window read of filled bytes answers them little-endian and zero-extended, and changes nothing (20_memory.md section 2, 20_memory.md section 4). -/
def Obligations.WindowReadsAreLittleEndian : Prop :=
  ∀ (s : State) (addr : Word) (n : Width) (rest : List Event), s.inputs = .read addr n :: rest → capsLegal s = true →
    (KeyAccess s addr n → (∀ k < n.bytes, (s.keymem.read (addr.toNat - 0x1000 + k)).isSome = true) →
      ∃ v : Word, step s = .next { s with inputs := rest, response := some (.data v) } ∧
        (∀ k < n.bytes, s.keymem.read (addr.toNat - 0x1000 + k) = some (v.extractLsb' (8 * k) 8)) ∧
        ∀ b, 8 * n.bytes ≤ b → v.getLsbD b = false) ∧
    (DataAccess s addr n → s.status.busy = false →
      (∀ k < n.bytes, (s.dbuf.read (addr.toNat - 0x10000 + k)).isSome = true) →
      ∃ v : Word, step s = .next { s with inputs := rest, response := some (.data v) } ∧
        (∀ k < n.bytes, s.dbuf.read (addr.toNat - 0x10000 + k) = some (v.extractLsb' (8 * k) 8)) ∧
        ∀ b, 8 * n.bytes ≤ b → v.getLsbD b = false)

/-- A window read of a byte that nothing has filled since reset stops with a fault that names the byte
(70_reset_and_hazards.md section 1, 93_implementation_defined.md U1). -/
def Obligations.UnfilledWindowReadFaults : Prop :=
  ∀ (s : State) (addr : Word) (n : Width) (rest : List Event), s.inputs = .read addr n :: rest → capsLegal s = true →
    (KeyAccess s addr n → (∃ k < n.bytes, s.keymem.read (addr.toNat - 0x1000 + k) = none) →
      ∃ k < n.bytes, s.keymem.read (addr.toNat - 0x1000 + k) = none ∧
        step s = .fault (.unfilledKey (addr.toNat - 0x1000 + k))) ∧
    (DataAccess s addr n → s.status.busy = false → (∃ k < n.bytes, s.dbuf.read (addr.toNat - 0x10000 + k) = none) →
      ∃ k < n.bytes, s.dbuf.read (addr.toNat - 0x10000 + k) = none ∧
        step s = .fault (.unfilledData (addr.toNat - 0x10000 + k)))

/-- A window write with BUSY = 0 stores its bytes little-endian and changes no other byte and no register (20_memory.md section 4). -/
def Obligations.WindowWritesStoreTheirBytes : Prop :=
  ∀ (s : State) (addr : Word) (n : Width) (v : Word) (rest : List Event), s.inputs = .write addr n v :: rest →
    capsLegal s = true → s.status.busy = false →
    (KeyAccess s addr n →
      ∃ m, step s = .next { s with keymem := m, inputs := rest, response := some .okay } ∧
        ∀ j, m.read j = if addr.toNat - 0x1000 ≤ j ∧ j < addr.toNat - 0x1000 + n.bytes
          then some (v.extractLsb' (8 * (j - (addr.toNat - 0x1000))) 8) else s.keymem.read j) ∧
    (DataAccess s addr n →
      ∃ m, step s = .next { s with dbuf := m, inputs := rest, response := some .okay } ∧
        ∀ i, m.read i = if addr.toNat - 0x10000 ≤ i ∧ i < addr.toNat - 0x10000 + n.bytes
          then some (v.extractLsb' (8 * (i - (addr.toNat - 0x10000))) 8) else s.dbuf.read i)

/-- A window read right after a write of the same offset and size returns the low bytes of the value written
(20_memory.md section 2, 20_memory.md section 4). -/
def Obligations.WindowReadAfterWriteReturnsTheValue : Prop :=
  ∀ (s : State) (addr : Word) (n : Width) (v : Word) (rest : List Event),
    s.inputs = .write addr n v :: .read addr n :: rest → capsLegal s = true → s.status.busy = false →
    (KeyAccess s addr n ∨ DataAccess s addr n) →
    ∃ t u, step s = .next t ∧ step t = .next u ∧ u.inputs = rest ∧
      u.response = some (.data ((v.setWidth (8 * n.bytes)).setWidth 32))

/-- LEN and KEYLEN store any value; a STATUS write clears only WRBUSY; read-only registers ignore a write (10_state.md section 3, 20_memory.md section 4). -/
def Obligations.RegisterWritesWithBusyClear : Prop :=
  ∀ (s : State) (off v : Word) (rest : List Event), s.inputs = .write off .four v :: rest →
    (off = 0x008 → s.status.busy = false →
      step s = .next { s with len := v, inputs := rest, response := some .okay }) ∧
    (off = 0x00C → s.status.busy = false →
      step s = .next { s with keylen := v, inputs := rest, response := some .okay }) ∧
    (off = 0x004 →
      step s = .next { s with status := { s.status with wrbusy := s.status.wrbusy && !v.getLsbD 8 }, inputs := rest,
                              response := some .okay }) ∧
    (off = 0x010 ∨ off = 0x014 ∨ off = 0x018 ∨ off = 0x01C →
      step s = .next { s with inputs := rest, response := some .okay })

/-- An access to a reserved offset, of a wrong size, misaligned or crossing a window end gets a bus error and changes nothing (R200). -/
def Obligations.IllegalAccessesGetABusError : Prop :=
  ∀ (s : State) (addr : Word) (n : Width) (rest : List Event),
    ¬ CsrAccess addr n → ¬ KeyAccess s addr n → ¬ DataAccess s addr n →
    (s.inputs = .read addr n :: rest → step s = .next { s with inputs := rest, response := some (.busError addr) }) ∧
    ∀ v : Word, s.inputs = .write addr n v :: rest →
      step s = .next { s with inputs := rest, response := some (.busError addr) }

/-- No host read changes the state of the block, and with BUSY = 0 a read repeated at once answers the same (20_memory.md section 3). -/
def Obligations.ReadsChangeNoStateOfTheBlock : Prop :=
  (∀ (s t : State) (addr : Word) (n : Width) (rest : List Event), s.inputs = .read addr n :: rest → step s = .next t →
    t = { s with inputs := rest, response := t.response, draws := t.draws } ∧
      (s.status.busy = false → t.draws = s.draws)) ∧
  ∀ (s t : State) (addr : Word) (n : Width), s.status.busy = false → memRead s addr n = .next t → memRead t addr n = .next t

/-- KEYMEM and KEYLEN change only by a host write to them with BUSY = 0, or by reset: no command writes the
key (10_state.md section 3, 10_state.md section 4, 10_state.md section 5, 70_reset_and_hazards.md section 1).
-/
def Obligations.KeyChangesOnlyByHostWriteOrReset : Prop :=
  ∀ s t : State, step s = .next t →
    (t.keymem ≠ s.keymem →
      (s.status.busy = false ∧ ∃ addr n v, s.inputs.head? = some (.write addr n v) ∧ KeyAccess s addr n) ∨
        s.inputs.head? = some .reset) ∧
    (t.keylen ≠ s.keylen →
      (s.status.busy = false ∧ s.inputs.head? = some (.write 0x00C .four t.keylen)) ∨ s.inputs.head? = some .reset)

/-- BUFCAP and KEYCAP are constant: no step changes them (10_state.md section 3). -/
def Obligations.CapacitiesNeverChange : Prop :=
  ∀ s t : State, step s = .next t → t.bufcap = s.bufcap ∧ t.keycap = s.keycap

/-- After reset every register holds its reset value, STATUS reads 0 and no byte of DBUF or KEYMEM has a value
(10_state.md section 6, 70_reset_and_hazards.md section 1). -/
def Obligations.ResetStateHoldsTheResetValues : Prop :=
  State.reset.cmd = 0 ∧ State.reset.status.word = 0 ∧ State.reset.len = 0 ∧ State.reset.keylen = 0 ∧
  State.reset.bufcap = Config.bufMax ∧ State.reset.keycap = Config.keyMax ∧
  (∀ a, State.reset.dbuf.read a = none) ∧ (∀ a, State.reset.keymem.read a = none) ∧
  Config.bufMax.toNat % 16 = 0 ∧ 16 ≤ Config.bufMax.toNat ∧ Config.bufMax.toNat ≤ 0xFFFF0000 ∧
  1 ≤ Config.keyMax.toNat ∧ Config.keyMax.toNat ≤ 4096

/-- A reset in any state, BUSY or not, leaves the reset values, the capacities, and memories without a value (70_reset_and_hazards.md section 1). -/
def Obligations.ResetAbandonsEverything : Prop :=
  ∀ (s : State) (rest : List Event), s.inputs = .reset :: rest →
    step s = .next { cmd := 0, status := { busy := false, done := false, err := .none, wrbusy := false }, len := 0,
                     keylen := 0, bufcap := s.bufcap, keycap := s.keycap, dbuf := [], keymem := [], inputs := rest,
                     response := none, draws := s.draws }

/-- ceil16 is the least multiple of 16 that is at least n, and parity is bit 0 of the unsigned key byte (R16, R17). -/
def Obligations.CeilingAndParityOfTheOperands : Prop :=
  (∀ n : Nat, ceil16 n % 16 = 0 ∧ n ≤ ceil16 n ∧ (∀ m, n ≤ m → m % 16 = 0 → ceil16 n ≤ m) ∧
    ceil16 n = n + (16 - n % 16) % 16) ∧
  ceil16 0 = 0 ∧ ceil16 5 = 16 ∧ ceil16 16 = 16 ∧ ceil16 17 = 32 ∧
  ∀ b : Byte, parity b = b.toNat % 2 ∧ (parity b = 1 ↔ b.getLsbD 0 = true)

/-- PAD sets LEN to ceil16(LEN), fills the added bytes with 0x81 and changes nothing else, within BUF_MAX (R120, R124). -/
def Obligations.PadFillsToTheBlock : Prop :=
  ∀ s : State, s.len.toNat ≤ s.bufcap.toNat → s.bufcap.toNat % 16 = 0 →
    ceil16 s.len.toNat = s.len.toNat + (16 - s.len.toNat % 16) % 16 ∧ ceil16 s.len.toNat ≤ s.bufcap.toNat ∧
    ∃ m, exec .pad s = .next { s with len := BitVec.ofNat 32 (ceil16 s.len.toNat), dbuf := m, status := { s.status with busy := false, done := true } } ∧
      ∀ a, m.read a = if s.len.toNat ≤ a ∧ a < ceil16 s.len.toNat then some 0x81 else s.dbuf.read a

/-- DEPAD lowers LEN past every trailing 0x81 byte and changes nothing else (R122). -/
def Obligations.DepadStripsTheTrailingRun : Prop :=
  ∀ s : State, s.len.toNat ≤ s.bufcap.toNat →
    (∀ r ≤ s.len.toNat, (∀ a, r ≤ a → a < s.len.toNat → s.dbuf.read a = some 0x81) →
      (r = 0 ∨ ∃ b, s.dbuf.read (r - 1) = some b ∧ b ≠ 0x81) →
      exec .depad s = .next { s with len := BitVec.ofNat 32 r, status := { s.status with busy := false, done := true } }) ∧
    (dataFilled s s.len.toNat →
      ∃ r ≤ s.len.toNat, (∀ a, r ≤ a → a < s.len.toNat → s.dbuf.read a = some 0x81) ∧
        (r = 0 ∨ ∃ b, s.dbuf.read (r - 1) = some b ∧ b ≠ 0x81))

/-- KXOR replaces DBUF[i] by DBUF[i] XOR KEYMEM[i mod KEYLEN] for i < LEN and changes nothing else (R140). -/
def Obligations.KxorMixesEveryByteWithItsKeyByte : Prop :=
  ∀ s : State, s.len.toNat ≤ s.bufcap.toNat → 1 ≤ s.keylen.toNat → s.keylen.toNat ≤ s.keycap.toNat →
    dataFilled s s.len.toNat → keyFilled s s.len.toNat →
    ∃ m, exec .kxor s = .next { s with dbuf := m, status := { s.status with busy := false, done := true } } ∧
      ∀ a, m.read a = if a < s.len.toNat then xorAt s a else s.dbuf.read a

/-- SENC and SDEC each XOR every byte with its key byte, leave LEN, and have exactly the effect of KXOR (43_pipelines.md section 2). -/
def Obligations.StreamCommandsAreKeyXorAlone : Prop :=
  ∀ (s : State) (i : Instr), (i = .senc ∨ i = .sdec) → s.len.toNat ≤ s.bufcap.toNat → 1 ≤ s.keylen.toNat →
    s.keylen.toNat ≤ s.keycap.toNat → dataFilled s s.len.toNat → keyFilled s s.len.toNat →
    exec i s = exec .kxor s ∧
    ∃ m, exec i s = .next { s with dbuf := m, status := { s.status with busy := false, done := true } } ∧
      ∀ a, m.read a = if a < s.len.toNat then xorAt s a else s.dbuf.read a

/-- Any two of KXOR, SENC and SDEC in a row with the same key restore DBUF (R143, R179). -/
def Obligations.KeyXorTwiceRestoresTheBuffer : Prop :=
  ∀ (s : State) (i j : Instr), i ∈ [.kxor, .senc, .sdec] → j ∈ [.kxor, .senc, .sdec] →
    s.len.toNat ≤ s.bufcap.toNat → 1 ≤ s.keylen.toNat → s.keylen.toNat ≤ s.keycap.toNat →
    dataFilled s s.len.toNat → keyFilled s s.len.toNat →
    exec i s = exec j s ∧
    ∃ t u, exec i s = .next t ∧ exec j t = .next u ∧ u.len = s.len ∧ ∀ a, u.dbuf.read a = s.dbuf.read a

/-- The sequential swap walk exchanges mirror pair s exactly when the parities of the key bytes that test it XOR to 1 (R153). -/
def Obligations.SwapComputesTheClosedForm : Prop :=
  ∀ s : State, s.len.toNat ≤ s.bufcap.toNat → 1 ≤ s.keylen.toNat → s.keylen.toNat ≤ s.keycap.toNat →
    dataFilled s s.len.toNat → keyFilled s s.len.toNat →
    (∃ m, exec .swap s = .next { s with dbuf := m, status := { s.status with busy := false, done := true } } ∧
      ∀ a, m.read a = s.dbuf.read (swapSource s s.len.toNat a)) ∧
    ∀ h p : Nat, p < h →
      pairExchanged s (2 * h) p = decide ((keyParityAt s p + keyParityAt s (p + h)) % 2 = 1) ∧
      pairExchanged s (2 * h + 1) p =
        (if p = 0 then decide ((keyParityAt s 0 + keyParityAt s h + keyParityAt s (2 * h)) % 2 = 1)
          else decide ((keyParityAt s p + keyParityAt s (p + h)) % 2 = 1))

/-- SWAP is its own inverse: two SWAPs with the same key and LEN restore every byte of DBUF (42_swap.md section 2). -/
def Obligations.SwapTwiceRestoresTheBuffer : Prop :=
  ∀ s : State, s.len.toNat ≤ s.bufcap.toNat → 1 ≤ s.keylen.toNat → s.keylen.toNat ≤ s.keycap.toNat →
    dataFilled s s.len.toNat → keyFilled s s.len.toNat →
    ∃ t u, exec .swap s = .next t ∧ exec .swap t = .next u ∧ u.len = s.len ∧ ∀ a, u.dbuf.read a = s.dbuf.read a

/-- Which positions SWAP exchanges depends on LEN, KEYLEN and KEYMEM alone, never on a data byte (42_swap.md section 2). -/
def Obligations.SwapNeverLooksAtData : Prop :=
  ∀ s s' t t' : State, s'.len = s.len → s'.keylen = s.keylen → s'.keymem = s.keymem →
    exec .swap s = .next t → exec .swap s' = .next t' →
    ∃ f : Nat → Nat, (∀ a, f (f a) = a) ∧ (∀ a, f a = a ∨ (a < s.len.toNat ∧ f a = s.len.toNat - 1 - a)) ∧
      (∀ a, t.dbuf.read a = s.dbuf.read (f a)) ∧ ∀ a, t'.dbuf.read a = s'.dbuf.read (f a)

/-- BENC answers exactly what PAD, KXOR and SWAP in a row answer, and BDEC what SWAP, KXOR and DEPAD answer (43_pipelines.md section 3). -/
def Obligations.PipelinesAreStageChains : Prop :=
  ∀ s : State, capsLegal s = true →
    (Ready .benc s → ∃ t u v, exec .pad s = .next t ∧ exec .kxor t = .next u ∧ exec .swap u = .next v ∧
      exec .benc s = .next v) ∧
    (Ready .bdec s → ∃ t u v, exec .swap s = .next t ∧ exec .kxor t = .next u ∧ exec .depad u = .next v ∧
      exec .bdec s = .next v)

/-- BENC computes swap(xorWithKey(pad(p, 16), k), k) of the source, in place, and changes nothing else (00_scope.md section 5, 43_pipelines.md section 1). -/
def Obligations.BencRefinesTheSourcePipeline : Prop :=
  ∀ (s : State) (p k : List Byte), capsLegal s = true → HoldsBuffer s p → HoldsKey s k → k ≠ [] →
    p.length ≤ s.bufcap.toNat → k.length ≤ s.keycap.toNat →
    ∃ m, exec .benc s = .next { s with len := BitVec.ofNat 32 (ceil16 p.length), dbuf := m, status := { s.status with busy := false, done := true } } ∧
      HoldsBuffer { s with len := BitVec.ofNat 32 (ceil16 p.length), dbuf := m } (Source.blockEncrypt p k) ∧
      ∀ a, ceil16 p.length ≤ a → m.read a = s.dbuf.read a

/-- BDEC computes depad(xorWithKey(swap(c, k), k)) of the source, in place, for a ciphertext of any length
(00_scope.md section 5, 43_pipelines.md section 1). -/
def Obligations.BdecRefinesTheSourcePipeline : Prop :=
  ∀ (s : State) (c k : List Byte), capsLegal s = true → HoldsBuffer s c → HoldsKey s k → k ≠ [] →
    c.length ≤ s.bufcap.toNat → k.length ≤ s.keycap.toNat →
    ∃ (n : Word) (m : Memory), exec .bdec s = .next { s with len := n, dbuf := m, status := { s.status with busy := false, done := true } } ∧
      n.toNat ≤ c.length ∧ HoldsBuffer { s with len := n, dbuf := m } (Source.blockDecrypt c k) ∧
      (∀ a, n.toNat ≤ a → a < c.length → m.read a = some 0x81) ∧ ∀ a, c.length ≤ a → m.read a = s.dbuf.read a

/-- BENC then BDEC with the same key gives back the plaintext without its trailing run of 0x81 bytes (R177, R178). -/
def Obligations.BlockRoundTripLosesOnlyTheTrailingRun : Prop :=
  ∀ (s : State) (q k : List Byte) (r : Nat), capsLegal s = true → HoldsBuffer s (q ++ List.replicate r 0x81) →
    q.getLast? ≠ some 0x81 → HoldsKey s k → k ≠ [] → q.length + r ≤ s.bufcap.toNat → k.length ≤ s.keycap.toNat →
    ∃ t u, exec .benc s = .next t ∧ t.len.toNat = ceil16 (q.length + r) ∧ exec .bdec t = .next u ∧ HoldsBuffer u q

/-- PAD then DEPAD leaves the buffer without its own trailing run of 0x81 bytes and changes no byte below the old LEN (R126). -/
def Obligations.DepadAfterPad : Prop :=
  ∀ (s : State) (q : List Byte) (r : Nat), s.bufcap.toNat % 16 = 0 → HoldsBuffer s (q ++ List.replicate r 0x81) →
    q.getLast? ≠ some 0x81 → q.length + r ≤ s.bufcap.toNat →
    ∃ t u, exec .pad s = .next t ∧ exec .depad t = .next u ∧ u.len.toNat + r = s.len.toNat ∧ u.len.toNat = q.length ∧
      ∀ a < s.len.toNat, u.dbuf.read a = s.dbuf.read a

/-- Running PAD twice, or DEPAD twice, has the effect of running it once (40_padding.md section 1, 40_padding.md section 2). -/
def Obligations.PadAndDepadAreIdempotent : Prop :=
  ∀ s t : State, (exec .pad s = .next t → exec .pad t = .next t) ∧ (exec .depad s = .next t → exec .depad t = .next t)

/-- A completion changes only BUSY, DONE, LEN and bytes of DBUF below the larger of the two lengths (10_state.md section 5, 20_memory.md section 6). -/
def Obligations.CompletionFrame : Prop :=
  ∀ (i : Instr) (s t : State), exec i s = .next t →
    t = { s with len := t.len, dbuf := t.dbuf, status := { s.status with busy := false, done := true } } ∧
    (∀ a, s.len.toNat ≤ a → t.len.toNat ≤ a → t.dbuf.read a = s.dbuf.read a) ∧
    (i = .kxor ∨ i = .swap ∨ i = .senc ∨ i = .sdec → t.len = s.len) ∧ (i = .depad → t.dbuf = s.dbuf)

/-- The invariant holds after reset (70_reset_and_hazards.md section 1). -/
def Obligations.ResetSatisfiesTheInvariant : Prop :=
  State.reset.Inv

/-- Every step keeps legal capacities, canonical memories within them, and a valid command behind BUSY
(10_state.md section 5, 20_memory.md section 6, 30_encoding.md section 3). -/
def Obligations.StepKeepsTheInvariant : Prop :=
  ∀ s t : State, s.Inv → step s = .next t → t.Inv

/-- No step is refused, and the only fault is a read of a byte that nothing has filled since reset (60_exceptions.md section 5, 20_memory.md section 6). -/
def Obligations.OnlyUnfilledBytesCanStopTheMachine : Prop :=
  ∀ s : State, s.Inv → (∀ r, step s ≠ .refused r) ∧
    ∀ f, step s = .fault f →
      (∃ i, f = .unfilledData i ∧ i < s.bufcap.toNat ∧ s.dbuf.read i = none) ∨
        ∃ j, f = .unfilledKey j ∧ j < s.keycap.toNat ∧ s.keymem.read j = none

/-- On the engine's turn (also with no event left, log entry 5) a command in flight whose operands are filled
completes without error (10_state.md section 5, 60_exceptions.md section 5). Log entry 5 is DEDUCED: the spec
only assumes weak fairness; what the completion does is the spec's. -/
def Obligations.CommandInFlightCompletes : Prop :=
  ∀ (s : State) (i : Instr), s.Inv → s.status.busy = true → s.cmd = encode i → EngineTurn s →
    (i ≠ .pad → dataFilled s s.len.toNat) → keyFilled s (keyPositions i s) →
    ∃ t, step s = .next t ∧ t.status = { s.status with busy := false, done := true, err := .none }

/-- Whatever the host writes and however often it polls, a command in flight has completed once its accesses
are served (fairness as in log entry 5) (10_state.md section 5, 70_reset_and_hazards.md section 4). That the
engine has the turn when no event is left is the model's form of the spec's weak fairness (log entry 5,
DEDUCED). The events are host writes and polls of STATUS alone. -/
def Obligations.IssuedCommandEndsWhenTheHostStops : Prop :=
  ∀ (s : State) (i : Instr), s.Inv → s.status.busy = true → s.cmd = encode i →
    (i ≠ .pad → dataFilled s s.len.toNat) → keyFilled s (keyPositions i s) →
    (∀ e ∈ s.inputs, e = .read 0x004 .four ∨ ∃ addr n v, e = .write addr n v) →
    ∃ t, Sys2Proof.core.run (s.inputs.length + 1) s = .next t ∧ t.status.busy = false ∧ t.status.done = true ∧
      t.status.err = .none
end

