-- ==== Sys2Proof/Laws/State.lean ====
section
/-! SUPPORT. One lemma per field per update of State and of Status, all true by rfl, and the equations that
turn the named operations into those updates. -/

namespace Sys2Proof.Machine

variable (s : State)

@[simp] theorem State.setCmd_cmd (w : Word) : (s.setCmd w).cmd = w := rfl
@[simp] theorem State.setCmd_status (w : Word) : (s.setCmd w).status = s.status := rfl
@[simp] theorem State.setCmd_len (w : Word) : (s.setCmd w).len = s.len := rfl
@[simp] theorem State.setCmd_keylen (w : Word) : (s.setCmd w).keylen = s.keylen := rfl
@[simp] theorem State.setCmd_bufcap (w : Word) : (s.setCmd w).bufcap = s.bufcap := rfl
@[simp] theorem State.setCmd_keycap (w : Word) : (s.setCmd w).keycap = s.keycap := rfl
@[simp] theorem State.setCmd_dbuf (w : Word) : (s.setCmd w).dbuf = s.dbuf := rfl
@[simp] theorem State.setCmd_keymem (w : Word) : (s.setCmd w).keymem = s.keymem := rfl
@[simp] theorem State.setCmd_inputs (w : Word) : (s.setCmd w).inputs = s.inputs := rfl
@[simp] theorem State.setCmd_response (w : Word) : (s.setCmd w).response = s.response := rfl
@[simp] theorem State.setCmd_draws (w : Word) : (s.setCmd w).draws = s.draws := rfl
@[simp] theorem State.setCmd_self : s.setCmd s.cmd = s := rfl
@[simp] theorem State.setCmd_twice (w w' : Word) : (s.setCmd w).setCmd w' = s.setCmd w' := rfl

@[simp] theorem State.setStatus_cmd (x : Status) : (s.setStatus x).cmd = s.cmd := rfl
@[simp] theorem State.setStatus_status (x : Status) : (s.setStatus x).status = x := rfl
@[simp] theorem State.setStatus_len (x : Status) : (s.setStatus x).len = s.len := rfl
@[simp] theorem State.setStatus_keylen (x : Status) : (s.setStatus x).keylen = s.keylen := rfl
@[simp] theorem State.setStatus_bufcap (x : Status) : (s.setStatus x).bufcap = s.bufcap := rfl
@[simp] theorem State.setStatus_keycap (x : Status) : (s.setStatus x).keycap = s.keycap := rfl
@[simp] theorem State.setStatus_dbuf (x : Status) : (s.setStatus x).dbuf = s.dbuf := rfl
@[simp] theorem State.setStatus_keymem (x : Status) : (s.setStatus x).keymem = s.keymem := rfl
@[simp] theorem State.setStatus_inputs (x : Status) : (s.setStatus x).inputs = s.inputs := rfl
@[simp] theorem State.setStatus_response (x : Status) : (s.setStatus x).response = s.response := rfl
@[simp] theorem State.setStatus_draws (x : Status) : (s.setStatus x).draws = s.draws := rfl
@[simp] theorem State.setStatus_self : s.setStatus s.status = s := rfl
@[simp] theorem State.setStatus_twice (x x' : Status) : (s.setStatus x).setStatus x' = s.setStatus x' := rfl

@[simp] theorem State.setLen_cmd (n : Word) : (s.setLen n).cmd = s.cmd := rfl
@[simp] theorem State.setLen_status (n : Word) : (s.setLen n).status = s.status := rfl
@[simp] theorem State.setLen_len (n : Word) : (s.setLen n).len = n := rfl
@[simp] theorem State.setLen_keylen (n : Word) : (s.setLen n).keylen = s.keylen := rfl
@[simp] theorem State.setLen_bufcap (n : Word) : (s.setLen n).bufcap = s.bufcap := rfl
@[simp] theorem State.setLen_keycap (n : Word) : (s.setLen n).keycap = s.keycap := rfl
@[simp] theorem State.setLen_dbuf (n : Word) : (s.setLen n).dbuf = s.dbuf := rfl
@[simp] theorem State.setLen_keymem (n : Word) : (s.setLen n).keymem = s.keymem := rfl
@[simp] theorem State.setLen_inputs (n : Word) : (s.setLen n).inputs = s.inputs := rfl
@[simp] theorem State.setLen_response (n : Word) : (s.setLen n).response = s.response := rfl
@[simp] theorem State.setLen_draws (n : Word) : (s.setLen n).draws = s.draws := rfl
@[simp] theorem State.setLen_self : s.setLen s.len = s := rfl
@[simp] theorem State.setLen_twice (n n' : Word) : (s.setLen n).setLen n' = s.setLen n' := rfl

@[simp] theorem State.setKeylen_cmd (k : Word) : (s.setKeylen k).cmd = s.cmd := rfl
@[simp] theorem State.setKeylen_status (k : Word) : (s.setKeylen k).status = s.status := rfl
@[simp] theorem State.setKeylen_len (k : Word) : (s.setKeylen k).len = s.len := rfl
@[simp] theorem State.setKeylen_keylen (k : Word) : (s.setKeylen k).keylen = k := rfl
@[simp] theorem State.setKeylen_bufcap (k : Word) : (s.setKeylen k).bufcap = s.bufcap := rfl
@[simp] theorem State.setKeylen_keycap (k : Word) : (s.setKeylen k).keycap = s.keycap := rfl
@[simp] theorem State.setKeylen_dbuf (k : Word) : (s.setKeylen k).dbuf = s.dbuf := rfl
@[simp] theorem State.setKeylen_keymem (k : Word) : (s.setKeylen k).keymem = s.keymem := rfl
@[simp] theorem State.setKeylen_inputs (k : Word) : (s.setKeylen k).inputs = s.inputs := rfl
@[simp] theorem State.setKeylen_response (k : Word) : (s.setKeylen k).response = s.response := rfl
@[simp] theorem State.setKeylen_draws (k : Word) : (s.setKeylen k).draws = s.draws := rfl
@[simp] theorem State.setKeylen_self : s.setKeylen s.keylen = s := rfl
@[simp] theorem State.setKeylen_twice (k k' : Word) : (s.setKeylen k).setKeylen k' = s.setKeylen k' := rfl

@[simp] theorem State.setDbuf_cmd (m : Memory) : (s.setDbuf m).cmd = s.cmd := rfl
@[simp] theorem State.setDbuf_status (m : Memory) : (s.setDbuf m).status = s.status := rfl
@[simp] theorem State.setDbuf_len (m : Memory) : (s.setDbuf m).len = s.len := rfl
@[simp] theorem State.setDbuf_keylen (m : Memory) : (s.setDbuf m).keylen = s.keylen := rfl
@[simp] theorem State.setDbuf_bufcap (m : Memory) : (s.setDbuf m).bufcap = s.bufcap := rfl
@[simp] theorem State.setDbuf_keycap (m : Memory) : (s.setDbuf m).keycap = s.keycap := rfl
@[simp] theorem State.setDbuf_dbuf (m : Memory) : (s.setDbuf m).dbuf = m := rfl
@[simp] theorem State.setDbuf_keymem (m : Memory) : (s.setDbuf m).keymem = s.keymem := rfl
@[simp] theorem State.setDbuf_inputs (m : Memory) : (s.setDbuf m).inputs = s.inputs := rfl
@[simp] theorem State.setDbuf_response (m : Memory) : (s.setDbuf m).response = s.response := rfl
@[simp] theorem State.setDbuf_draws (m : Memory) : (s.setDbuf m).draws = s.draws := rfl
@[simp] theorem State.setDbuf_self : s.setDbuf s.dbuf = s := rfl
@[simp] theorem State.setDbuf_twice (m m' : Memory) : (s.setDbuf m).setDbuf m' = s.setDbuf m' := rfl

@[simp] theorem State.setKeymem_cmd (m : Memory) : (s.setKeymem m).cmd = s.cmd := rfl
@[simp] theorem State.setKeymem_status (m : Memory) : (s.setKeymem m).status = s.status := rfl
@[simp] theorem State.setKeymem_len (m : Memory) : (s.setKeymem m).len = s.len := rfl
@[simp] theorem State.setKeymem_keylen (m : Memory) : (s.setKeymem m).keylen = s.keylen := rfl
@[simp] theorem State.setKeymem_bufcap (m : Memory) : (s.setKeymem m).bufcap = s.bufcap := rfl
@[simp] theorem State.setKeymem_keycap (m : Memory) : (s.setKeymem m).keycap = s.keycap := rfl
@[simp] theorem State.setKeymem_dbuf (m : Memory) : (s.setKeymem m).dbuf = s.dbuf := rfl
@[simp] theorem State.setKeymem_keymem (m : Memory) : (s.setKeymem m).keymem = m := rfl
@[simp] theorem State.setKeymem_inputs (m : Memory) : (s.setKeymem m).inputs = s.inputs := rfl
@[simp] theorem State.setKeymem_response (m : Memory) : (s.setKeymem m).response = s.response := rfl
@[simp] theorem State.setKeymem_draws (m : Memory) : (s.setKeymem m).draws = s.draws := rfl
@[simp] theorem State.setKeymem_self : s.setKeymem s.keymem = s := rfl
@[simp] theorem State.setKeymem_twice (m m' : Memory) : (s.setKeymem m).setKeymem m' = s.setKeymem m' := rfl

@[simp] theorem State.setInputs_cmd (es : List Event) : (s.setInputs es).cmd = s.cmd := rfl
@[simp] theorem State.setInputs_status (es : List Event) : (s.setInputs es).status = s.status := rfl
@[simp] theorem State.setInputs_len (es : List Event) : (s.setInputs es).len = s.len := rfl
@[simp] theorem State.setInputs_keylen (es : List Event) : (s.setInputs es).keylen = s.keylen := rfl
@[simp] theorem State.setInputs_bufcap (es : List Event) : (s.setInputs es).bufcap = s.bufcap := rfl
@[simp] theorem State.setInputs_keycap (es : List Event) : (s.setInputs es).keycap = s.keycap := rfl
@[simp] theorem State.setInputs_dbuf (es : List Event) : (s.setInputs es).dbuf = s.dbuf := rfl
@[simp] theorem State.setInputs_keymem (es : List Event) : (s.setInputs es).keymem = s.keymem := rfl
@[simp] theorem State.setInputs_inputs (es : List Event) : (s.setInputs es).inputs = es := rfl
@[simp] theorem State.setInputs_response (es : List Event) : (s.setInputs es).response = s.response := rfl
@[simp] theorem State.setInputs_draws (es : List Event) : (s.setInputs es).draws = s.draws := rfl
@[simp] theorem State.setInputs_self : s.setInputs s.inputs = s := rfl
@[simp] theorem State.setInputs_twice (es es' : List Event) : (s.setInputs es).setInputs es' = s.setInputs es' := rfl

@[simp] theorem State.setResponse_cmd (r : Option Response) : (s.setResponse r).cmd = s.cmd := rfl
@[simp] theorem State.setResponse_status (r : Option Response) : (s.setResponse r).status = s.status := rfl
@[simp] theorem State.setResponse_len (r : Option Response) : (s.setResponse r).len = s.len := rfl
@[simp] theorem State.setResponse_keylen (r : Option Response) : (s.setResponse r).keylen = s.keylen := rfl
@[simp] theorem State.setResponse_bufcap (r : Option Response) : (s.setResponse r).bufcap = s.bufcap := rfl
@[simp] theorem State.setResponse_keycap (r : Option Response) : (s.setResponse r).keycap = s.keycap := rfl
@[simp] theorem State.setResponse_dbuf (r : Option Response) : (s.setResponse r).dbuf = s.dbuf := rfl
@[simp] theorem State.setResponse_keymem (r : Option Response) : (s.setResponse r).keymem = s.keymem := rfl
@[simp] theorem State.setResponse_inputs (r : Option Response) : (s.setResponse r).inputs = s.inputs := rfl
@[simp] theorem State.setResponse_response (r : Option Response) : (s.setResponse r).response = r := rfl
@[simp] theorem State.setResponse_draws (r : Option Response) : (s.setResponse r).draws = s.draws := rfl
@[simp] theorem State.setResponse_self : s.setResponse s.response = s := rfl
@[simp] theorem State.setResponse_twice (r r' : Option Response) : (s.setResponse r).setResponse r' = s.setResponse r' := rfl

@[simp] theorem State.setDraws_cmd (k : Nat) : (s.setDraws k).cmd = s.cmd := rfl
@[simp] theorem State.setDraws_status (k : Nat) : (s.setDraws k).status = s.status := rfl
@[simp] theorem State.setDraws_len (k : Nat) : (s.setDraws k).len = s.len := rfl
@[simp] theorem State.setDraws_keylen (k : Nat) : (s.setDraws k).keylen = s.keylen := rfl
@[simp] theorem State.setDraws_bufcap (k : Nat) : (s.setDraws k).bufcap = s.bufcap := rfl
@[simp] theorem State.setDraws_keycap (k : Nat) : (s.setDraws k).keycap = s.keycap := rfl
@[simp] theorem State.setDraws_dbuf (k : Nat) : (s.setDraws k).dbuf = s.dbuf := rfl
@[simp] theorem State.setDraws_keymem (k : Nat) : (s.setDraws k).keymem = s.keymem := rfl
@[simp] theorem State.setDraws_inputs (k : Nat) : (s.setDraws k).inputs = s.inputs := rfl
@[simp] theorem State.setDraws_response (k : Nat) : (s.setDraws k).response = s.response := rfl
@[simp] theorem State.setDraws_draws (k : Nat) : (s.setDraws k).draws = k := rfl
@[simp] theorem State.setDraws_self : s.setDraws s.draws = s := rfl
@[simp] theorem State.setDraws_twice (k k' : Nat) : (s.setDraws k).setDraws k' = s.setDraws k' := rfl

@[ext] theorem State.ext_fields {s t : State} (h1 : s.cmd = t.cmd) (h2 : s.status = t.status) (h3 : s.len = t.len)
    (h4 : s.keylen = t.keylen) (h5 : s.bufcap = t.bufcap) (h6 : s.keycap = t.keycap) (h7 : s.dbuf = t.dbuf)
    (h8 : s.keymem = t.keymem) (h9 : s.inputs = t.inputs) (h10 : s.response = t.response) (h11 : s.draws = t.draws) :
    s = t := by
  cases s; cases t; simp_all

@[simp] theorem Status.accepted_busy (x : Status) : (x.accepted).busy = x.busy := rfl
@[simp] theorem Status.accepted_done (x : Status) : (x.accepted).done = false := rfl
@[simp] theorem Status.accepted_err (x : Status) : (x.accepted).err = ErrCode.none := rfl
@[simp] theorem Status.accepted_wrbusy (x : Status) : (x.accepted).wrbusy = x.wrbusy := rfl
@[simp] theorem Status.failed_busy (x : Status) (e : ErrCode) : (x.failed e).busy = x.busy := rfl
@[simp] theorem Status.failed_done (x : Status) (e : ErrCode) : (x.failed e).done = true := rfl
@[simp] theorem Status.failed_err (x : Status) (e : ErrCode) : (x.failed e).err = e := rfl
@[simp] theorem Status.failed_wrbusy (x : Status) (e : ErrCode) : (x.failed e).wrbusy = x.wrbusy := rfl
@[simp] theorem Status.started_busy (x : Status) : (x.started).busy = true := rfl
@[simp] theorem Status.started_done (x : Status) : (x.started).done = x.done := rfl
@[simp] theorem Status.started_err (x : Status) : (x.started).err = x.err := rfl
@[simp] theorem Status.started_wrbusy (x : Status) : (x.started).wrbusy = x.wrbusy := rfl
@[simp] theorem Status.finished_busy (x : Status) : (x.finished).busy = false := rfl
@[simp] theorem Status.finished_done (x : Status) : (x.finished).done = true := rfl
@[simp] theorem Status.finished_err (x : Status) : (x.finished).err = x.err := rfl
@[simp] theorem Status.finished_wrbusy (x : Status) : (x.finished).wrbusy = x.wrbusy := rfl
@[simp] theorem Status.dropped_busy (x : Status) : (x.dropped).busy = x.busy := rfl
@[simp] theorem Status.dropped_done (x : Status) : (x.dropped).done = x.done := rfl
@[simp] theorem Status.dropped_err (x : Status) : (x.dropped).err = x.err := rfl
@[simp] theorem Status.dropped_wrbusy (x : Status) : (x.dropped).wrbusy = true := rfl
@[simp] theorem Status.written_busy (x : Status) (v : Word) : (x.written v).busy = x.busy := rfl
@[simp] theorem Status.written_done (x : Status) (v : Word) : (x.written v).done = x.done := rfl
@[simp] theorem Status.written_err (x : Status) (v : Word) : (x.written v).err = x.err := rfl
@[simp] theorem Status.written_wrbusy (x : Status) (v : Word) : (x.written v).wrbusy = (x.wrbusy && !v.getLsbD 8) := rfl

@[simp] theorem acceptWord_eq (w : Word) : acceptWord w s = (s.setCmd w).setStatus s.status.accepted := rfl
@[simp] theorem reportError_eq (e : ErrCode) : reportError e s = s.setStatus (s.status.failed e) := rfl
@[simp] theorem startCommand_eq : startCommand s = s.setStatus s.status.started := rfl
@[simp] theorem finish_eq : finish s = s.setStatus s.status.finished := rfl
@[simp] theorem dropWrite_eq : dropWrite s = s.setStatus s.status.dropped := rfl

@[simp] theorem applyReset_cmd : (applyReset s).cmd = 0 := rfl
@[simp] theorem applyReset_status : (applyReset s).status = Status.reset := rfl
@[simp] theorem applyReset_len : (applyReset s).len = 0 := rfl
@[simp] theorem applyReset_keylen : (applyReset s).keylen = 0 := rfl
@[simp] theorem applyReset_bufcap : (applyReset s).bufcap = s.bufcap := rfl
@[simp] theorem applyReset_keycap : (applyReset s).keycap = s.keycap := rfl
@[simp] theorem applyReset_dbuf : (applyReset s).dbuf = [] := rfl
@[simp] theorem applyReset_keymem : (applyReset s).keymem = [] := rfl
@[simp] theorem applyReset_inputs : (applyReset s).inputs = s.inputs := rfl
@[simp] theorem applyReset_response : (applyReset s).response = none := rfl
@[simp] theorem applyReset_draws : (applyReset s).draws = s.draws := rfl

/-- `complete` goes on exactly where the pseudocode answers a state. -/
theorem complete_eq_next {r : Except Fault State} {t : State} :
    complete r = .next t ↔ ∃ u, r = .ok u ∧ t = u.setStatus u.status.finished := by
  cases r <;> simp [complete, eq_comm]

/-- `complete` faults exactly where the pseudocode does. -/
theorem complete_eq_fault {r : Except Fault State} {f : Fault} : complete r = .fault f ↔ r = .error f := by
  cases r <;> simp [complete]

/-- `complete` is never a refusal. -/
theorem complete_ne_refused {r : Except Fault State} {f : Refusal} : complete r ≠ .refused f := by
  cases r <;> simp [complete]

/-- A sequence of two operations answers `b` exactly where the first answers some `a` and the second, given
`a`, answers `b`. -/
theorem bind_eq_ok {α β : Type} {x : Except Fault α} {f : α → Except Fault β} {b : β} :
    (x >>= f) = .ok b ↔ ∃ a, x = .ok a ∧ f a = .ok b := by
  cases x <;> simp [bind, Except.bind]

/-- A sequence of two operations faults where the first does, or where the second does. -/
theorem bind_eq_error {α β : Type} {x : Except Fault α} {f : α → Except Fault β} {e : Fault} :
    (x >>= f) = .error e ↔ x = .error e ∨ ∃ a, x = .ok a ∧ f a = .error e := by
  cases x <;> simp [bind, Except.bind]

/-- A sequence whose first operation answers goes on with the second. -/
@[simp] theorem ok_bind {α β : Type} (a : α) (f : α → Except Fault β) : ((Except.ok a : Except Fault α) >>= f) = f a := rfl

/-- A sequence whose first operation faults, faults. -/
@[simp] theorem error_bind {α β : Type} (e : Fault) (f : α → Except Fault β) :
    ((Except.error e : Except Fault α) >>= f) = .error e := rfl

end Sys2Proof.Machine
end

