-- ==== Sys2Proof/Laws/Memory.lean ====
section
/-! SUPPORT. What reading and writing a memory do: a read after a write, the canonical form, the capacity,
and that memories in canonical form with the same bytes are the same data. -/

namespace Sys2Proof.Machine

/-- A read after a write gives the value written at that index and the old value elsewhere. -/
@[simp] theorem Memory.read_write (m : Memory) (a : Nat) (b : Byte) (c : Nat) :
    (m.write a b).read c = if c = a then some b else m.read c := by
  induction m with
  | nil => simp [Memory.write, Memory.read, eq_comm]
  | cons e rest ih =>
    obtain ⟨k, v⟩ := e
    simp only [Memory.write]
    split_ifs <;> simp only [Memory.read, ih] <;> split_ifs <;> first | rfl | omega

@[simp] theorem Memory.read_nil (a : Nat) : Memory.read [] a = none := rfl

theorem Memory.risesFrom_write {m : Memory} {lo a : Nat} {b : Byte} (h : m.risesFrom lo = true) (ha : lo ≤ a) :
    (m.write a b).risesFrom lo = true := by
  induction m generalizing lo with
  | nil => simpa [Memory.write, Memory.risesFrom] using ha
  | cons e rest ih =>
    obtain ⟨k, v⟩ := e
    simp only [Memory.risesFrom, Bool.and_eq_true, decide_eq_true_eq] at h
    simp only [Memory.write]
    split_ifs with h1 h2
    · simpa [Memory.risesFrom, ha, h.2] using h1
    · simpa [Memory.risesFrom, h2] using h
    · simpa [Memory.risesFrom, h.1] using ih h.2 (by omega)

/-- A write keeps the canonical form. -/
theorem Memory.wf_write {m : Memory} {a : Nat} {b : Byte} (h : m.wf = true) : (m.write a b).wf = true :=
  Memory.risesFrom_write h (Nat.zero_le a)

/-- The memory after reset is in canonical form. -/
@[simp] theorem Memory.wf_nil : Memory.wf [] = true := rfl

/-- A write below the capacity keeps every index below it. -/
theorem Memory.within_write {m : Memory} {cap a : Nat} {b : Byte} (h : m.within cap = true) (ha : a < cap) :
    (m.write a b).within cap = true := by
  induction m with
  | nil => simpa [Memory.write, Memory.within] using ha
  | cons e rest ih =>
    obtain ⟨k, v⟩ := e
    have hc : k < cap ∧ Memory.within cap rest = true := by simpa [Memory.within] using h
    have hw := ih hc.2
    simp only [Memory.within] at hc hw ⊢
    simp only [Memory.write]
    split_ifs <;> simp only [List.all_cons, Bool.and_eq_true, decide_eq_true_eq]
    · exact ⟨ha, hc.1, hc.2⟩
    · exact ⟨ha, hc.2⟩
    · exact ⟨hc.1, hw⟩

@[simp] theorem Memory.within_nil (cap : Nat) : Memory.within cap [] = true := rfl

/-- A byte that is filled lies below the capacity. -/
theorem Memory.lt_of_read {m : Memory} {cap a : Nat} {b : Byte} (h : m.within cap = true) (hb : m.read a = some b) :
    a < cap := by
  induction m with
  | nil => simp at hb
  | cons e rest ih =>
    obtain ⟨k, v⟩ := e
    simp only [Memory.within, List.all_cons, Bool.and_eq_true, decide_eq_true_eq] at h ih
    simp only [Memory.read] at hb
    split_ifs at hb with hk
    · omega
    · exact ih h.2 hb

theorem Memory.read_below {m : Memory} {lo a : Nat} (h : m.risesFrom lo = true) (ha : a < lo) : m.read a = none := by
  induction m generalizing lo with
  | nil => rfl
  | cons e rest ih =>
    obtain ⟨k, v⟩ := e
    simp only [Memory.risesFrom, Bool.and_eq_true, decide_eq_true_eq] at h
    rw [Memory.read, if_neg (by omega)]
    exact ih h.2 (by omega)

theorem Memory.ext_risesFrom {m m' : Memory} {lo : Nat} (h : m.risesFrom lo = true) (h' : m'.risesFrom lo = true)
    (he : ∀ a, m.read a = m'.read a) : m = m' := by
  induction m generalizing m' lo with
  | nil =>
    cases m' with
    | nil => rfl
    | cons e rest => simpa [Memory.read] using he e.1
  | cons e rest ih =>
    obtain ⟨k, v⟩ := e
    cases m' with
    | nil => simpa [Memory.read] using he k
    | cons e' rest' =>
      obtain ⟨k', v'⟩ := e'
      simp only [Memory.risesFrom, Bool.and_eq_true, decide_eq_true_eq] at h h'
      have hkk : k = k' := by
        rcases Nat.lt_trichotomy k k' with hlt | heq | hgt
        · have := he k
          rw [Memory.read, if_pos rfl, Memory.read, if_neg (by omega), Memory.read_below h'.2 (by omega)] at this
          cases this
        · exact heq
        · have := he k'
          rw [Memory.read, if_neg (by omega), Memory.read_below h.2 (by omega), Memory.read, if_pos rfl] at this
          cases this
      subst hkk
      have hv := he k
      simp only [Memory.read, if_true, Option.some.injEq] at hv
      subst hv
      rw [ih h.2 h'.2 fun a => ?_]
      by_cases ha : k = a
      · subst ha
        rw [Memory.read_below h.2 (by omega), Memory.read_below h'.2 (by omega)]
      · simpa [Memory.read, ha] using he a

/-- Two memories in canonical form that hold the same bytes are the same data. -/
theorem Memory.ext_read {m m' : Memory} (h : m.wf = true) (h' : m'.wf = true) (he : ∀ a, m.read a = m'.read a) :
    m = m' :=
  Memory.ext_risesFrom h h' he

end Sys2Proof.Machine
end

