-- ==== Sys2Proof/Laws/Operands.lean ====
section
/-! SUPPORT. What each operand operation answers, and the arithmetic of ceil16. -/

namespace Sys2Proof.Machine

/-- `readData` answers exactly the filled bytes below the capacity. -/
theorem readData_eq_ok {s : State} {i : Nat} {b : Byte} :
    readData s i = .ok b ↔ i < s.bufcap.toNat ∧ s.dbuf.read i = some b := by
  unfold readData
  split_ifs with h
  · cases s.dbuf.read i <;> simp [h]
  · simp [h]

/-- `readData` faults on a byte that is not filled, or outside the capacity. -/
theorem readData_eq_error {s : State} {i : Nat} {f : Fault} :
    readData s i = .error f ↔ (i < s.bufcap.toNat ∧ s.dbuf.read i = none ∧ f = .unfilledData i) ∨
      (s.bufcap.toNat ≤ i ∧ f = .dataIndex i) := by
  unfold readData
  split_ifs with h
  · cases s.dbuf.read i <;> simp [h, eq_comm, Nat.not_le.2 h]
  · simp [h, eq_comm, Nat.not_lt.1 h]

/-- `writeData` writes every byte below the capacity. -/
theorem writeData_eq_ok {s t : State} {i : Nat} {b : Byte} :
    writeData s i b = .ok t ↔ i < s.bufcap.toNat ∧ t = s.setDbuf (s.dbuf.write i b) := by
  unfold writeData
  split_ifs with h <;> simp [h, eq_comm]

/-- `writeData` faults outside the capacity only. -/
theorem writeData_eq_error {s : State} {i : Nat} {b : Byte} {f : Fault} :
    writeData s i b = .error f ↔ s.bufcap.toNat ≤ i ∧ f = .dataIndex i := by
  unfold writeData
  split_ifs with h
  · simp [Nat.not_le.2 h]
  · simp [eq_comm, Nat.not_lt.1 h]

/-- `readKey` answers exactly the filled bytes below the capacity. -/
theorem readKey_eq_ok {s : State} {j : Nat} {b : Byte} :
    readKey s j = .ok b ↔ j < s.keycap.toNat ∧ s.keymem.read j = some b := by
  unfold readKey
  split_ifs with h
  · cases s.keymem.read j <;> simp [h]
  · simp [h]

/-- `readKey` faults on a byte that is not filled, or outside the capacity. -/
theorem readKey_eq_error {s : State} {j : Nat} {f : Fault} :
    readKey s j = .error f ↔ (j < s.keycap.toNat ∧ s.keymem.read j = none ∧ f = .unfilledKey j) ∨
      (s.keycap.toNat ≤ j ∧ f = .keyIndex j) := by
  unfold readKey
  split_ifs with h
  · cases s.keymem.read j <;> simp [h, eq_comm, Nat.not_le.2 h]
  · simp [h, eq_comm, Nat.not_lt.1 h]

/-- `keyAt` answers the key byte at i mod KEYLEN. -/
theorem keyAt_eq_ok {s : State} {i : Nat} {b : Byte} :
    keyAt s i = .ok b ↔ s.keylen.toNat ≠ 0 ∧ i % s.keylen.toNat < s.keycap.toNat ∧
      s.keymem.read (i % s.keylen.toNat) = some b := by
  unfold keyAt
  split_ifs with h <;> simp [h, readKey_eq_ok]

/-- `keyAt` faults with KEYLEN = 0 or where `readKey` does. -/
theorem keyAt_eq_error {s : State} {i : Nat} {f : Fault} :
    keyAt s i = .error f ↔ (s.keylen.toNat = 0 ∧ f = .zeroKeyLength) ∨
      (s.keylen.toNat ≠ 0 ∧ readKey s (i % s.keylen.toNat) = .error f) := by
  unfold keyAt
  split_ifs with h <;> simp [h, eq_comm]

/-- With a legal key length every filled key byte is answered. -/
theorem keyAt_of_filled {s : State} {i : Nat} (h0 : s.keylen.toNat ≠ 0) (hc : s.keylen.toNat ≤ s.keycap.toNat)
    (hf : (s.keymem.read (i % s.keylen.toNat)).isSome = true) :
    ∃ b, keyAt s i = .ok b ∧ s.keymem.read (i % s.keylen.toNat) = some b := by
  obtain ⟨b, hb⟩ := Option.isSome_iff_exists.1 hf
  exact ⟨b, keyAt_eq_ok.2 ⟨h0, lt_of_lt_of_le (Nat.mod_lt _ (Nat.pos_of_ne_zero h0)) hc, hb⟩, hb⟩

/-- The key byte does not depend on DBUF. -/
@[simp] theorem keyAt_setDbuf (s : State) (m : Memory) (i : Nat) : keyAt (s.setDbuf m) i = keyAt s i := rfl

/-- `ceil16` gives a multiple of 16. -/
theorem ceil16_mod (n : Nat) : ceil16 n % 16 = 0 := by
  simp only [ceil16, blockSize]; omega

/-- `ceil16` does not shrink, and adds at most 15. -/
theorem ceil16_bounds (n : Nat) : n ≤ ceil16 n ∧ ceil16 n < n + 16 := by
  simp only [ceil16, blockSize]; omega

/-- `ceil16 n` is below every multiple of 16 that is at least n. -/
theorem ceil16_le {n c : Nat} (h : n ≤ c) (hc : c % 16 = 0) : ceil16 n ≤ c := by
  simp only [ceil16, blockSize]; omega

end Sys2Proof.Machine
end

