-- ==== Sys2Proof/Laws/Bus.lean ====
section
/-! SUPPORT. What the host's accesses do: where an access goes, how the bytes of a value are gathered and
scattered, and the outcomes of a read, of a write and of an issue. -/

namespace Sys2Proof.Machine

/-- An access reaches a register exactly as a 4-byte access at its offset (R67). -/
theorem target_eq_csr {s : State} {a n : Nat} {c : Csr} :
    target s a n = .csr c ↔ n = 4 ∧ a = (csrOffset c).toNat := by
  constructor
  · intro h
    unfold target at h
    split_ifs at h with h1 h2
    have hn : n = 4 := by omega
    refine ⟨hn, ?_⟩
    have ha : a = 0 ∨ a = 4 ∨ a = 8 ∨ a = 12 ∨ a = 16 ∨ a = 20 ∨ a = 24 ∨ a = 28 := by omega
    rcases ha with rfl | rfl | rfl | rfl | rfl | rfl | rfl | rfl <;> simp only [csrAt] at h <;> cases h <;> rfl
  · rintro ⟨rfl, rfl⟩
    cases c <;> rfl

/-- An access reaches the key window exactly as an aligned access inside it (R68). -/
theorem target_eq_key {s : State} {a n j : Nat} :
    target s a n = .key j ↔ keyBase ≤ a ∧ a + n ≤ keyBase + s.keycap.toNat ∧ a % n = 0 ∧ j = a - keyBase := by
  unfold target
  have hb : keyBase = 0x1000 := rfl
  split_ifs with h1 h2 h3 h4 h5 h6
  all_goals first
    | (simp only [false_iff]; omega)
    | (cases csrAt a <;> (simp only [reduceCtorEq, false_iff]; omega))
    | (simp only [Target.key.injEq]; omega)

/-- An access that reaches the data window is an aligned access inside it (R68). -/
theorem target_data {s : State} {a n i : Nat} (h : target s a n = .data i) :
    dataBase ≤ a ∧ a + n ≤ dataBase + s.bufcap.toNat ∧ a % n = 0 ∧ i = a - dataBase := by
  have hd : dataBase = 0x10000 := rfl
  by_cases h1 : a < 0x20
  · exfalso
    rw [target, if_pos h1] at h
    split_ifs at h
    cases hc : csrAt a <;> rw [hc] at h <;> cases h
  rw [target, if_neg h1] at h
  split_ifs at h with h3 h4 h5 h6
  exact ⟨h5.1, h5.2, by omega, (Target.data.inj h).symm⟩

/-- With a legal key capacity every aligned access inside the data window reaches it (R68). -/
theorem target_eq_data {s : State} {a n : Nat} (hk : s.keycap.toNat ≤ 4096) (h1 : dataBase ≤ a)
    (h2 : a + n ≤ dataBase + s.bufcap.toNat) (h3 : a % n = 0) : target s a n = .data (a - dataBase) := by
  have hb : keyBase = 0x1000 := rfl
  have hd : dataBase = 0x10000 := rfl
  unfold target
  rw [if_neg (by omega), if_neg (by omega), if_pos ⟨h1, h2⟩, if_neg (by omega)]

/-- An access that reaches no register and no window goes nowhere. -/
theorem target_eq_nowhere {s : State} {a n : Nat} (hc : ∀ c, target s a n ≠ .csr c) (hk : ∀ j, target s a n ≠ .key j)
    (hd : ∀ i, target s a n ≠ .data i) : target s a n = .nowhere := by
  cases h : target s a n with
  | csr c => exact absurd h (hc c)
  | key j => exact absurd h (hk j)
  | data i => exact absurd h (hd i)
  | nowhere => rfl

/-- A 4-byte access at a register's offset reaches that register. -/
@[simp] theorem target_csrOffset (s : State) (c : Csr) : target s (csrOffset c).toNat Width.four.bytes = .csr c :=
  target_eq_csr.2 ⟨rfl, rfl⟩

/-- A write to a register. -/
theorem memWrite_csr (s : State) (c : Csr) (v : Word) :
    memWrite s (csrOffset c) .four v = (csrWrite s v c).setResponse (some .okay) := by
  rw [memWrite, target_csrOffset]

/-- A read of a register: LEN answers a free value while BUSY = 1, everything else its value. -/
theorem memRead_csr (s : State) (c : Csr) :
    memRead s (csrOffset c) .four =
      .next (if c = .len ∧ s.status.busy = true then answerFree s 4 else s.setResponse (some (.data (csrValue s c)))) := by
  rw [memRead, target_csrOffset]
  by_cases h : c = .len ∧ s.status.busy = true
  · simp only [if_pos h]
  · simp only [if_neg h]
    rfl

/-- A scatter writes byte k of the value at index a + k and nothing else (R74). -/
theorem scatter_read (n a : Nat) (v : Word) (m : Memory) (c : Nat) :
    (scatter n a v m).read c =
      if a ≤ c ∧ c < a + n then some (v.extractLsb' (8 * (c - a)) 8) else m.read c := by
  induction n generalizing a v m with
  | zero => rw [scatter, if_neg (by omega)]
  | succ n ih =>
    rw [scatter, ih, Memory.read_write]
    by_cases hca : c = a
    · subst hca
      rw [if_neg (by omega), if_pos rfl, if_pos (by omega)]
      congr 1
      ext i hi
      simp
    · by_cases hin : a + 1 ≤ c ∧ c < a + 1 + n
      · rw [if_pos hin, if_pos (by omega)]
        congr 1
        ext i hi
        simp only [BitVec.getElem_extractLsb', BitVec.getLsbD_ushiftRight]
        congr 1
        omega
      · rw [if_neg hin, if_neg hca, if_neg (by omega)]

/-- A scatter keeps the canonical form. -/
theorem scatter_wf {n a : Nat} {v : Word} {m : Memory} (h : m.wf = true) : (scatter n a v m).wf = true := by
  induction n generalizing a v m with
  | zero => exact h
  | succ n ih => exact ih (Memory.wf_write h)

/-- A scatter inside the capacity keeps every index below it. -/
theorem scatter_within {n a cap : Nat} {v : Word} {m : Memory} (h : m.within cap = true) (hc : a + n ≤ cap) :
    (scatter n a v m).within cap = true := by
  induction n generalizing a v m with
  | zero => exact h
  | succ n ih => exact ih (Memory.within_write h (by omega)) (by omega)

/-- A gather of n ≤ 4 bytes puts the byte at a + k in bits [8k+7:8k], and zeros above them (R66). -/
theorem gather_bytes {rd : Nat → Except Fault Byte} {f : Nat → Byte} {n a : Nat} (hn : n ≤ 4)
    (h : ∀ k < n, rd (a + k) = .ok (f k)) :
    ∃ w, gather rd n a = .ok w ∧ (∀ k < n, w.extractLsb' (8 * k) 8 = f k) ∧ ∀ i, 8 * n ≤ i → w.getLsbD i = false := by
  induction n generalizing a f with
  | zero => exact ⟨0, rfl, fun k hk => absurd hk (Nat.not_lt_zero k), fun i _ => by simp⟩
  | succ n ih =>
    obtain ⟨w, hw, hb, hz⟩ := ih (f := fun k => f (k + 1)) (a := a + 1) (by omega) fun k hk => by
      rw [Nat.add_assoc, Nat.add_comm 1 k]
      exact h (k + 1) (by omega)
    refine ⟨w <<< 8 ||| (f 0).setWidth 32, ?_, fun k hk => ?_, fun i hi => ?_⟩
    · rw [gather]
      have h0 := h 0 (by omega)
      rw [Nat.add_zero] at h0
      rw [h0, ok_bind, hw, ok_bind]
    · cases k with
      | zero =>
        ext i hi
        simp [hi, show i < 32 by omega]
      | succ k =>
        rw [← hb k (by omega)]
        ext i hi
        have h1 : ¬ 8 * (k + 1) + i < 8 := by omega
        have h2 : 8 * (k + 1) + i - 8 = 8 * k + i := by omega
        have h3 : 8 * (k + 1) + i < 32 := by omega
        have h4 : (f 0).getLsbD (8 * (k + 1) + i) = false := BitVec.getLsbD_of_ge _ _ (by omega)
        simp [h1, h2, h3, h4, ← BitVec.getLsbD_eq_getElem]
    · have h1 : ¬ i < 8 := by omega
      have h4 : (f 0).getLsbD i = false := BitVec.getLsbD_of_ge _ _ (by omega)
      have h5 : w.getLsbD (i - 8) = false := hz _ (by omega)
      simp [BitVec.getLsbD_shiftLeft, h1, h4, h5]

/-- A gather faults only with the fault of one of its reads. -/
theorem gather_eq_error {rd : Nat → Except Fault Byte} {n a : Nat} {f : Fault} (h : gather rd n a = .error f) :
    ∃ k < n, rd (a + k) = .error f := by
  induction n generalizing a with
  | zero => cases h
  | succ n ih =>
    rcases bind_eq_error.1 h with h | ⟨b, -, h⟩
    · exact ⟨0, by omega, h⟩
    · rcases bind_eq_error.1 h with h | ⟨w, -, h⟩
      · obtain ⟨k, hk, hr⟩ := ih h
        exact ⟨k + 1, by omega, by rw [← hr]; congr 1; omega⟩
      · cases h

/-- A read that goes on changes the answer and the count of drawn values alone, and draws a value only while
a command is in flight (R71). -/
theorem memRead_eq_next {s t : State} {addr : Word} {w : Width} (h : memRead s addr w = .next t) :
    t = (s.setResponse t.response).setDraws t.draws ∧ (s.status.busy = false → t.draws = s.draws) := by
  have exact_ok : ∀ r, answer s r = .next t →
      t = (s.setResponse t.response).setDraws t.draws ∧ (s.status.busy = false → t.draws = s.draws) := by
    intro r hr
    cases r with
    | error f => cases hr
    | ok v => cases hr; exact ⟨rfl, fun _ => rfl⟩
  unfold memRead at h
  split at h
  · split_ifs at h with hb
    · cases h; exact ⟨rfl, fun hf => absurd (hb.2.symm.trans hf) (by decide)⟩
    · exact exact_ok _ h
  · exact exact_ok _ h
  · split_ifs at h with hb
    · cases h; exact ⟨rfl, fun hf => absurd (hb.symm.trans hf) (by decide)⟩
    · exact exact_ok _ h
  · cases h; exact ⟨rfl, fun _ => rfl⟩

/-- A read is never refused. -/
theorem memRead_ne_refused {s : State} {addr : Word} {w : Width} {r : Refusal} : memRead s addr w ≠ .refused r := by
  have key : ∀ x, answer s x ≠ .refused r := fun x => by cases x <;> simp [answer]
  unfold memRead
  split
  · split_ifs
    · simp
    · exact key _
  · exact key _
  · split_ifs
    · simp
    · exact key _
  · simp

/-- A read faults only on a byte of a window. -/
theorem memRead_eq_fault {s : State} {addr : Word} {w : Width} {f : Fault} (h : memRead s addr w = .fault f) :
    (∃ j, target s addr.toNat w.bytes = .key j ∧ gather (readKey s) w.bytes j = .error f) ∨
      (∃ i, target s addr.toNat w.bytes = .data i ∧ s.status.busy = false ∧ gather (readData s) w.bytes i = .error f) := by
  have key : ∀ x, answer s x = .fault f → x = .error f := fun x hx => by
    cases x with
    | ok v => cases hx
    | error g => cases hx; rfl
  unfold memRead at h
  split at h
  · split_ifs at h
    cases h
  · rename_i j ht
    exact .inl ⟨j, ht, key _ h⟩
  · rename_i i ht
    split_ifs at h with hb
    exact .inr ⟨i, ht, by simpa using hb, key _ h⟩
  · cases h

/-- The three outcomes of a write to CMD: dropped, rejected, started (R41). -/
theorem issue_cases (w : Word) (s : State) :
    (s.status.busy = true ∧ issue w s = s.setStatus s.status.dropped) ∨
      (s.status.busy = false ∧ validate w s = .none ∧
        issue w s = (s.setCmd w).setStatus s.status.accepted.started) ∨
      (s.status.busy = false ∧ validate w s ≠ .none ∧
        issue w s = (s.setCmd w).setStatus (s.status.accepted.failed (validate w s))) := by
  unfold issue
  split_ifs with hb hv
  · exact .inl ⟨hb, rfl⟩
  · exact .inr (.inl ⟨by simpa using hb, hv, rfl⟩)
  · exact .inr (.inr ⟨by simpa using hb, hv, rfl⟩)

/-- The outcomes of a write, but for the answer it leaves: nothing, an issue, a STATUS write, a dropped write,
or the value stored in LEN, KEYLEN, KEYMEM or DBUF (R74). -/
theorem memWrite_cases (s : State) (addr : Word) (w : Width) (v : Word) :
    ∃ u r, memWrite s addr w v = State.setResponse u r ∧
      (u = s ∨
        (addr = 0 ∧ w = .four ∧ u = issue v s) ∨
        (addr = 4 ∧ w = .four ∧ u = s.setStatus (s.status.written v)) ∨
        (s.status.busy = true ∧ u = s.setStatus s.status.dropped) ∨
        (s.status.busy = false ∧ addr = 8 ∧ w = .four ∧ u = s.setLen v) ∨
        (s.status.busy = false ∧ addr = 12 ∧ w = .four ∧ u = s.setKeylen v) ∨
        (∃ j, s.status.busy = false ∧ target s addr.toNat w.bytes = .key j ∧
          u = s.setKeymem (scatter w.bytes j v s.keymem)) ∨
        (∃ i, s.status.busy = false ∧ target s addr.toNat w.bytes = .data i ∧
          u = s.setDbuf (scatter w.bytes i v s.dbuf))) := by
  have four : w.bytes = 4 → w = .four := by cases w <;> simp [Width.bytes]
  cases ht : target s addr.toNat w.bytes with
  | csr c =>
    obtain ⟨hn, ha⟩ := target_eq_csr.1 ht
    have haddr : addr = csrOffset c := BitVec.eq_of_toNat_eq ha
    refine ⟨csrWrite s v c, some .okay, by rw [memWrite, ht], ?_⟩
    cases c <;> simp only [csrWrite, unlessBusy]
    · exact .inr (.inl ⟨haddr, four hn, trivial⟩)
    · exact .inr (.inr (.inl ⟨haddr, four hn, trivial⟩))
    · split_ifs with hb
      · exact .inr (.inr (.inr (.inl ⟨hb, rfl⟩)))
      · exact .inr (.inr (.inr (.inr (.inl ⟨by simpa using hb, haddr, four hn, rfl⟩))))
    · split_ifs with hb
      · exact .inr (.inr (.inr (.inl ⟨hb, rfl⟩)))
      · exact .inr (.inr (.inr (.inr (.inr (.inl ⟨by simpa using hb, haddr, four hn, rfl⟩)))))
    all_goals exact .inl trivial
  | key j =>
    refine ⟨_, some .okay, by rw [memWrite, ht], ?_⟩
    unfold unlessBusy
    split_ifs with hb
    · exact .inr (.inr (.inr (.inl ⟨hb, rfl⟩)))
    · exact .inr (.inr (.inr (.inr (.inr (.inr (.inl ⟨j, by simpa using hb, rfl, rfl⟩))))))
  | data i =>
    refine ⟨_, some .okay, by rw [memWrite, ht], ?_⟩
    unfold unlessBusy
    split_ifs with hb
    · exact .inr (.inr (.inr (.inl ⟨hb, rfl⟩)))
    · exact .inr (.inr (.inr (.inr (.inr (.inr (.inr ⟨i, by simpa using hb, rfl, rfl⟩))))))
  | nowhere => exact ⟨s, some (.busError addr), by rw [memWrite, ht], .inl rfl⟩

end Sys2Proof.Machine
end

