-- ==== Sys2Proof/Laws/Engine.lean ====
section
/-! SUPPORT. What the four units of the datapath do, each once: what they leave unchanged whenever they
answer a state, and the state they answer when the bytes they read are filled. -/

namespace Sys2Proof.Machine

/-- t differs from s in DBUF alone, and DBUF was changed by writes below BUF_MAX alone: every property of a
memory that such writes keep holds after if it held before. -/
def WritesBuffer (s t : State) : Prop :=
  t = s.setDbuf t.dbuf ∧
    ∀ P : Memory → Prop, (∀ m i b, i < s.bufcap.toNat → P m → P (m.write i b)) → P s.dbuf → P t.dbuf

theorem WritesBuffer.refl (s : State) : WritesBuffer s s := ⟨rfl, fun _ _ h => h⟩

theorem WritesBuffer.trans {s t u : State} (h : WritesBuffer s t) (h' : WritesBuffer t u) : WritesBuffer s u := by
  obtain ⟨h1, h2⟩ := h
  obtain ⟨h3, h4⟩ := h'
  have hcap : t.bufcap = s.bufcap := by rw [h1]; rfl
  refine ⟨?_, fun P hP hs => h4 P (by rwa [hcap]) (h2 P hP hs)⟩
  rw [h3, State.setDbuf_dbuf, h1, State.setDbuf_twice]

/-- One write of a byte. -/
theorem writeData_writes {s t : State} {i : Nat} {b : Byte} (h : writeData s i b = .ok t) : WritesBuffer s t := by
  obtain ⟨hi, rfl⟩ := writeData_eq_ok.1 h
  exact ⟨rfl, fun P hP hs => hP _ _ _ hi hs⟩

/-- The pad loop changes DBUF alone. -/
theorem padFill_writes {k j : Nat} {s t : State} (h : padFill k j s = .ok t) : WritesBuffer s t := by
  induction k generalizing j s with
  | zero => cases h; exact .refl _
  | succ k ih =>
    obtain ⟨u, hu, h⟩ := bind_eq_ok.1 h
    exact (writeData_writes hu).trans (ih h)

/-- The key-XOR loop changes DBUF alone. -/
theorem keyXorFrom_writes {k i : Nat} {s t : State} (h : keyXorFrom k i s = .ok t) : WritesBuffer s t := by
  induction k generalizing i s with
  | zero => cases h; exact .refl _
  | succ k ih =>
    obtain ⟨b, -, h⟩ := bind_eq_ok.1 h
    obtain ⟨key, -, h⟩ := bind_eq_ok.1 h
    obtain ⟨u, hu, h⟩ := bind_eq_ok.1 h
    exact (writeData_writes hu).trans (ih h)

/-- An exchange changes DBUF alone. -/
theorem exchange_writes {s t : State} {start stop : Int} (h : exchange s start stop = .ok t) : WritesBuffer s t := by
  obtain ⟨a, -, h⟩ := bind_eq_ok.1 h
  obtain ⟨b, -, h⟩ := bind_eq_ok.1 h
  obtain ⟨x, -, h⟩ := bind_eq_ok.1 h
  obtain ⟨y, -, h⟩ := bind_eq_ok.1 h
  obtain ⟨u, hu, h⟩ := bind_eq_ok.1 h
  exact (writeData_writes hu).trans (writeData_writes h)

/-- A conditional exchange changes DBUF alone. -/
theorem exchangeIfOdd_writes {key : Byte} {s t : State} {start stop : Int}
    (h : exchangeIfOdd key s start stop = .ok t) : WritesBuffer s t := by
  unfold exchangeIfOdd at h
  split_ifs at h
  · exact exchange_writes h
  · cases h; exact .refl _

/-- The swap loop changes DBUF alone. -/
theorem swapFrom_writes {n k i : Nat} {start stop : Int} {s t : State} (h : swapFrom n k i start stop s = .ok t) :
    WritesBuffer s t := by
  induction k generalizing i start stop s with
  | zero => cases h; exact .refl _
  | succ k ih =>
    obtain ⟨key, -, h⟩ := bind_eq_ok.1 h
    obtain ⟨u, hu, h⟩ := bind_eq_ok.1 h
    split_ifs at h <;> exact (exchangeIfOdd_writes hu).trans (ih h)

/-- `Pad()` changes DBUF and sets LEN to ceil16(LEN). -/
theorem pad_eq_ok {s t : State} (h : pad s = .ok t) :
    ∃ u, WritesBuffer s u ∧ t = u.setLen (BitVec.ofNat 32 (ceil16 s.len.toNat)) := by
  obtain ⟨u, hu, h⟩ := bind_eq_ok.1 h
  cases h
  exact ⟨u, padFill_writes hu, rfl⟩

/-- `KeyXor()` changes DBUF alone. -/
theorem keyXor_writes {s t : State} (h : keyXor s = .ok t) : WritesBuffer s t := keyXorFrom_writes h

/-- `Swap()` changes DBUF alone. -/
theorem swap_writes {s t : State} (h : swap s = .ok t) : WritesBuffer s t := swapFrom_writes h

/-- The depad loop answers the length without the trailing run of 0x81. -/
theorem depadLength_eq_ok {s : State} {n r : Nat} (h : depadLength s n = .ok r) :
    r ≤ n ∧ (∀ a, r ≤ a → a < n → s.dbuf.read a = some padByte) ∧
      (r = 0 ∨ ∃ b, s.dbuf.read (r - 1) = some b ∧ b ≠ padByte) := by
  induction n with
  | zero => cases h; exact ⟨le_rfl, fun a _ h => absurd h (Nat.not_lt_zero a), .inl rfl⟩
  | succ n ih =>
    obtain ⟨b, hb, h⟩ := bind_eq_ok.1 h
    have hr := (readData_eq_ok.1 hb).2
    split_ifs at h with hp
    · obtain ⟨h1, h2, h3⟩ := ih h
      refine ⟨by omega, fun a ha han => ?_, h3⟩
      rcases Nat.lt_succ_iff_lt_or_eq.1 han with hlt | rfl
      · exact h2 a ha hlt
      · rw [hr, hp]
    · cases h
      exact ⟨le_rfl, fun a ha han => absurd han (by omega), .inr ⟨b, hr, hp⟩⟩

/-- The depad loop answers whenever the buffer is filled and within the capacity. -/
theorem depadLength_total {s : State} {n : Nat} (hc : n ≤ s.bufcap.toNat) (hf : dataFilled s n) :
    ∃ r, depadLength s n = .ok r := by
  induction n with
  | zero => exact ⟨0, rfl⟩
  | succ n ih =>
    obtain ⟨b, hb⟩ := Option.isSome_iff_exists.1 (hf n (Nat.lt_succ_self n))
    obtain ⟨r, hr⟩ := ih (by omega) fun i hi => hf i (by omega)
    by_cases hp : b = padByte
    · exact ⟨r, bind_eq_ok.2 ⟨b, readData_eq_ok.2 ⟨by omega, hb⟩, by rw [if_pos hp, hr]⟩⟩
    · exact ⟨n + 1, bind_eq_ok.2 ⟨b, readData_eq_ok.2 ⟨by omega, hb⟩, by rw [if_neg hp]⟩⟩

/-- `Depad()` changes LEN alone. -/
theorem depad_eq_ok {s t : State} (h : depad s = .ok t) :
    ∃ r, depadLength s s.len.toNat = .ok r ∧ t = s.setLen (BitVec.ofNat 32 r) := by
  obtain ⟨r, hr, h⟩ := bind_eq_ok.1 h
  cases h
  exact ⟨r, hr, rfl⟩

/-- The pad loop within the capacity fills exactly the k bytes from j on. -/
theorem padFill_fills {k j : Nat} {s : State} (h : j + k ≤ s.bufcap.toNat) :
    ∃ m, padFill k j s = .ok (s.setDbuf m) ∧
      ∀ a, m.read a = if j ≤ a ∧ a < j + k then some padByte else s.dbuf.read a := by
  induction k generalizing j s with
  | zero => exact ⟨s.dbuf, rfl, fun a => by rw [if_neg (by omega)]⟩
  | succ k ih =>
    have hw : writeData s j padByte = .ok (s.setDbuf (s.dbuf.write j padByte)) := writeData_eq_ok.2 ⟨by omega, rfl⟩
    obtain ⟨m, hm, hr⟩ := ih (j := j + 1) (s := s.setDbuf (s.dbuf.write j padByte)) (by simp; omega)
    refine ⟨m, bind_eq_ok.2 ⟨_, hw, hm⟩, fun a => ?_⟩
    rw [hr, State.setDbuf_dbuf, Memory.read_write]
    split_ifs <;> first | rfl | omega

/-- The key-XOR loop over filled operands replaces exactly the k bytes from i on by DBUF[a] XOR K(a). -/
theorem keyXorFrom_mixes {k i : Nat} {s : State} (hc : i + k ≤ s.bufcap.toNat) (h0 : s.keylen.toNat ≠ 0)
    (hk : s.keylen.toNat ≤ s.keycap.toNat) (hd : ∀ a, i ≤ a → a < i + k → (s.dbuf.read a).isSome = true)
    (hf : ∀ a, i ≤ a → a < i + k → (s.keymem.read (a % s.keylen.toNat)).isSome = true) :
    ∃ m, keyXorFrom k i s = .ok (s.setDbuf m) ∧
      ∀ a, m.read a = if i ≤ a ∧ a < i + k then xorAt s a else s.dbuf.read a := by
  induction k generalizing i s with
  | zero => exact ⟨s.dbuf, rfl, fun a => by rw [if_neg (by omega)]⟩
  | succ k ih =>
    obtain ⟨b, hb⟩ := Option.isSome_iff_exists.1 (hd i le_rfl (by omega))
    obtain ⟨key, hkey, hkr⟩ := keyAt_of_filled h0 hk (hf i le_rfl (by omega))
    have hw : writeData s i (b ^^^ key) = .ok (s.setDbuf (s.dbuf.write i (b ^^^ key))) :=
      writeData_eq_ok.2 ⟨by omega, rfl⟩
    obtain ⟨m, hm, hr⟩ := ih (i := i + 1) (s := s.setDbuf (s.dbuf.write i (b ^^^ key))) (by simp; omega) h0 hk
      (fun a h1 h2 => by
        rw [State.setDbuf_dbuf, Memory.read_write, if_neg (by omega)]
        exact hd a (by omega) (by omega))
      (fun a h1 h2 => hf a (by omega) (by omega))
    refine ⟨m, bind_eq_ok.2 ⟨b, readData_eq_ok.2 ⟨by omega, hb⟩, bind_eq_ok.2 ⟨key, hkey, bind_eq_ok.2 ⟨_, hw, hm⟩⟩⟩,
      fun a => ?_⟩
    rw [hr]
    by_cases hai : a = i
    · subst hai
      rw [if_neg (by omega), if_pos (by omega), State.setDbuf_dbuf, Memory.read_write, if_pos rfl, xorAt, hb, hkr]
    · by_cases hin : i + 1 ≤ a ∧ a < i + 1 + k
      · rw [if_pos hin, if_pos (by omega)]
        simp [xorAt, hai]
      · rw [if_neg hin, if_neg (by omega), State.setDbuf_dbuf, Memory.read_write, if_neg hai]

/-- An exchange of two filled bytes within the capacity. -/
theorem exchange_exchanges {s : State} {a b : Nat} (ha : a < s.bufcap.toNat) (hb : b < s.bufcap.toNat)
    (hfa : (s.dbuf.read a).isSome = true) (hfb : (s.dbuf.read b).isSome = true) :
    ∃ m, exchange s a b = .ok (s.setDbuf m) ∧
      ∀ c, m.read c = if c = b then s.dbuf.read a else if c = a then s.dbuf.read b else s.dbuf.read c := by
  obtain ⟨x, hx⟩ := Option.isSome_iff_exists.1 hfa
  obtain ⟨y, hy⟩ := Option.isSome_iff_exists.1 hfb
  have hi : ∀ c : Nat, cursorIndex (c : Int) = .ok c := fun c => by simp [cursorIndex]
  refine ⟨(s.dbuf.write a y).write b x, ?_, fun c => ?_⟩
  · rw [exchange, hi, ok_bind, hi, ok_bind, readData_eq_ok.2 ⟨ha, hx⟩, ok_bind, readData_eq_ok.2 ⟨hb, hy⟩, ok_bind,
      writeData_eq_ok.2 ⟨ha, rfl⟩, ok_bind]
    exact writeData_eq_ok.2 ⟨hb, rfl⟩
  · rw [Memory.read_write, Memory.read_write, hx, hy]

/-- The swap loop answers a state, with the cursors where R151 says they are, whenever the operands are filled. -/
theorem swapFrom_total {n k i start stop : Nat} {s : State} (hs : start ≤ stop) (hsum : start + stop + 1 = n)
    (hc : n ≤ s.bufcap.toNat) (h0 : s.keylen.toNat ≠ 0) (hk : s.keylen.toNat ≤ s.keycap.toNat) (hd : dataFilled s n)
    (hf : ∀ a, i ≤ a → a < i + k → (s.keymem.read (a % s.keylen.toNat)).isSome = true) :
    ∃ t, swapFrom n k i start stop s = .ok t ∧ dataFilled t n := by
  induction k generalizing i start stop s with
  | zero => exact ⟨s, rfl, hd⟩
  | succ k ih =>
    obtain ⟨key, hkey, -⟩ := keyAt_of_filled h0 hk (hf i le_rfl (by omega))
    obtain ⟨u, hu, hcap, hkl, hkc, hkm, hdu⟩ : ∃ u, exchangeIfOdd key s start stop = .ok u ∧
        u.bufcap = s.bufcap ∧ u.keylen = s.keylen ∧ u.keycap = s.keycap ∧ u.keymem = s.keymem ∧ dataFilled u n := by
      by_cases hp : parity key = 1
      · obtain ⟨m, hm, hr⟩ := exchange_exchanges (s := s) (a := start) (b := stop) (by omega) (by omega)
          (hd start (by omega)) (hd stop (by omega))
        refine ⟨s.setDbuf m, by rw [exchangeIfOdd, if_pos hp, hm], rfl, rfl, rfl, rfl, fun c hcn => ?_⟩
        rw [State.setDbuf_dbuf, hr]
        split_ifs
        · exact hd start (by omega)
        · exact hd stop (by omega)
        · exact hd c hcn
      · exact ⟨s, by rw [exchangeIfOdd, if_neg hp], rfl, rfl, rfl, rfl, hd⟩
    have hnext : ∀ a b : Nat, a ≤ b → a + b + 1 = n → ∃ t, swapFrom n k (i + 1) a b u = .ok t ∧ dataFilled t n :=
      fun a b hab hsum' => ih hab hsum' (by rw [hcap]; exact hc) (by rw [hkl]; exact h0) (by rw [hkl, hkc]; exact hk) hdu
        fun c h1 h2 => by rw [hkl, hkm]; exact hf c (by omega) (by omega)
    by_cases hreset : (start : Int) + 1 ≥ (stop : Int) - 1
    · obtain ⟨t, ht, hdt⟩ := hnext 0 (n - 1) (by omega) (by omega)
      refine ⟨t, bind_eq_ok.2 ⟨key, hkey, bind_eq_ok.2 ⟨u, hu, ?_⟩⟩, hdt⟩
      rw [if_pos hreset, ← ht]
      congr 1
      omega
    · obtain ⟨t, ht, hdt⟩ := hnext (start + 1) (stop - 1) (by omega) (by omega)
      refine ⟨t, bind_eq_ok.2 ⟨key, hkey, bind_eq_ok.2 ⟨u, hu, ?_⟩⟩, hdt⟩
      rw [if_neg hreset, ← ht]
      congr 1
      omega

end Sys2Proof.Machine
end

