-- ==== Sys2Proof/Laws/PerInstr.lean ====
section
/-! SUPPORT. Statements made per instruction, one lemma per constructor. -/

namespace Sys2Proof.Laws.CommandWord

/-- The command word of an instruction carries the fields of its table row at the bit places of R91, and they
pass the checks of R191. -/
def Statement (i : Instr) : Prop := Fields.ofWord (encode i) = i.fields ∧ i.fields.wellFormed = true

theorem benc : Statement .benc := ⟨by decide, by decide⟩
theorem bdec : Statement .bdec := ⟨by decide, by decide⟩
theorem senc : Statement .senc := ⟨by decide, by decide⟩
theorem sdec : Statement .sdec := ⟨by decide, by decide⟩
theorem pad : Statement .pad := ⟨by decide, by decide⟩
theorem depad : Statement .depad := ⟨by decide, by decide⟩
theorem kxor : Statement .kxor := ⟨by decide, by decide⟩
theorem swap : Statement .swap := ⟨by decide, by decide⟩

end Sys2Proof.Laws.CommandWord
end

