-- ==== Sys2Proof/Laws/Step.lean ====
section
/-! SUPPORT. What one step can do, by whose turn it is. -/

namespace Sys2Proof.Machine

variable {s t : State}

/-- The engine's turn, as the next event or because none is left. -/
theorem step_of_engine (h : s.inputs = [] ∨ ∃ rest, s.inputs = .engine :: rest) :
    step s = engineTurn (s.setInputs s.inputs.tail) := by
  rcases h with h | ⟨rest, h⟩
  · have hs : s.setInputs s.inputs.tail = s := by rw [h, List.tail_nil, ← h]; rfl
    rw [hs]
    simp only [step, nextTurn, h]
  · simp only [step, nextTurn, h, List.tail_cons]

/-- A host read. -/
theorem step_of_read {addr : Word} {w : Width} {rest : List Event} (h : s.inputs = .read addr w :: rest) :
    step s = memRead (s.setInputs rest) addr w := by
  simp only [step, nextTurn, h]

/-- A host write. -/
theorem step_of_write {addr : Word} {w : Width} {v : Word} {rest : List Event} (h : s.inputs = .write addr w v :: rest) :
    step s = .next (memWrite (s.setInputs rest) addr w v) := by
  simp only [step, nextTurn, h]

/-- Reset. -/
theorem step_of_reset {rest : List Event} (h : s.inputs = .reset :: rest) :
    step s = .next (applyReset (s.setInputs rest)) := by
  simp only [step, nextTurn, h]

/-- The engine's turn goes on idle with BUSY = 0, and by the command in flight with BUSY = 1. -/
theorem engineTurn_eq_next : engineTurn s = .next t ↔
    (s.status.busy = false ∧ t = s) ∨ (s.status.busy = true ∧ ∃ i, decode s.cmd = .ok i ∧ exec i s = .next t) := by
  unfold engineTurn runCommand
  split_ifs with hb
  · cases decode s.cmd <;> simp [hb]
  · simp [hb, eq_comm]

/-- The five kinds of step that go on: an idle engine turn, a completion, a read, a write, a reset. -/
theorem step_cases (h : step s = .next t) :
    ((s.inputs = [] ∨ ∃ rest, s.inputs = .engine :: rest) ∧ s.status.busy = false ∧ t = s.setInputs s.inputs.tail) ∨
      (∃ i, (s.inputs = [] ∨ ∃ rest, s.inputs = .engine :: rest) ∧ s.status.busy = true ∧ decode s.cmd = .ok i ∧
        exec i (s.setInputs s.inputs.tail) = .next t) ∨
      (∃ addr w rest, s.inputs = .read addr w :: rest ∧ memRead (s.setInputs rest) addr w = .next t) ∨
      (∃ addr w v rest, s.inputs = .write addr w v :: rest ∧ t = memWrite (s.setInputs rest) addr w v) ∨
      (∃ rest, s.inputs = .reset :: rest ∧ t = applyReset (s.setInputs rest)) := by
  by_cases hin : s.inputs = [] ∨ ∃ rest, s.inputs = .engine :: rest
  · rw [step_of_engine hin, engineTurn_eq_next] at h
    rcases h with ⟨hb, ht⟩ | ⟨hb, i, hi, hx⟩
    · exact .inl ⟨hin, hb, ht⟩
    · exact .inr (.inl ⟨i, hin, hb, hi, hx⟩)
  · cases hs : s.inputs with
    | nil => exact absurd (.inl hs) hin
    | cons e rest =>
      cases e with
      | engine => exact absurd (.inr ⟨rest, hs⟩) hin
      | read addr w => exact .inr (.inr (.inl ⟨addr, w, rest, rfl, by rw [← step_of_read hs, h]⟩))
      | write addr w v =>
        rw [step_of_write hs] at h
        cases h
        exact .inr (.inr (.inr (.inl ⟨addr, w, v, rest, rfl, rfl⟩)))
      | reset =>
        rw [step_of_reset hs] at h
        cases h
        exact .inr (.inr (.inr (.inr ⟨rest, rfl, rfl⟩)))

end Sys2Proof.Machine
end

