-- ==== Sys2Proof/Tests/Slice0.lean ====
section
/-! SUPPORT. Tests on fixed values. Every expected result is copied from a vector of 95_test_vectors.md (its id
stands in the comment) or from the table of 30_encoding.md; the witnesses show, for each obligation with
hypotheses, a state that meets them. Capacities as in the vectors: BUF_MAX = 64, KEY_MAX = 16. -/

-- The proofs below are checked one after another: side by side they take one thread, with its stack, each.
set_option Elab.async false

namespace Sys2Proof.Tests

open Sys2Proof Sys2Proof.Machine

/-- The bytes of a list at the indices from i on. -/
def cells : Nat → List Byte → Memory
  | _, [] => []
  | i, b :: rest => (i, b) :: cells (i + 1) rest

/-- The bytes first, first + 1, ... (n of them). -/
def countUp : Nat → Nat → List Byte
  | _, 0 => []
  | first, n + 1 => BitVec.ofNat 8 first :: countUp (first + 1) n

/-- A block that holds a key and a buffer, just after reset otherwise. -/
def holding (key data : List Byte) : State :=
  { State.resetWith 64 16 with
    keylen := BitVec.ofNat 32 key.length, len := BitVec.ofNat 32 data.length,
    keymem := cells 0 key, dbuf := cells 0 data }

/-- `holding` with a command in flight. -/
def inFlight (i : Instr) (key data : List Byte) : State :=
  startCommand (acceptWord (encode i) (holding key data))

/-- The state with the given events to come. -/
def given (s : State) (es : List Event) : State := s.setInputs es

/-- LEN and the bytes of DBUF after a result that goes on. -/
def buffer : Result → Option (Nat × List Byte)
  | .next t => some (t.len.toNat, t.dbuf.map (fun c => c.2))
  | .fault _ => none
  | .refused _ => none

/-- STATUS after a result that goes on. -/
def statusAfter : Result → Option Word
  | .next t => some t.status.word
  | .fault _ => none
  | .refused _ => none

/-- The answer to the access, after a result that goes on. -/
def answerAfter : Result → Option Response
  | .next t => t.response
  | .fault _ => none
  | .refused _ => none

/-- The fault of a result that stops. -/
def faultOf : Result → Option Fault
  | .next _ => none
  | .fault f => some f
  | .refused _ => none

/-- The state after a result that goes on. -/
def after : Result → Option State
  | .next t => some t
  | .fault _ => none
  | .refused _ => none

/-- A reserved bit set on BDEC (V-ERR-8). -/
theorem test_rejects_reserved_bits :
    (Fields.ofWord 0x00000114).wellFormed = false ∧ decode 0x00000114 = .error .reservedBits := by decide

/-- OP = 0, the reset value of CMD (V-ERR-1). -/
theorem test_rejects_zero_word :
    (Fields.ofWord 0x00000000).wellFormed = false ∧ decode 0x00000000 = .error .operation := by decide

/-- OP = 6 (V-ERR-6). -/
theorem test_rejects_operation :
    (Fields.ofWord 0x00000060).wellFormed = false ∧ decode 0x00000060 = .error .operation := by decide

/-- FAM = 2 (V-ERR-2). -/
theorem test_rejects_family :
    (Fields.ofWord 0x00000012).wellFormed = false ∧ decode 0x00000012 = .error .family := by decide

/-- MODE = 3 (V-ERR-5). -/
theorem test_rejects_direction :
    (Fields.ofWord 0x0000001C).wellFormed = false ∧ decode 0x0000001C = .error .direction := by decide

/-- PAD with FAM = 1 (V-ERR-7). -/
theorem test_rejects_stage_selector :
    (Fields.ofWord 0x00000021).wellFormed = false ∧ decode 0x00000021 = .error .stageSelector := by decide

/-- RSVD 000000000000000000000000, OP 0001, MODE 00, FAM 00 (R96). -/
theorem test_word_benc :
    decode 0b00000000000000000000000000010000#32 = .ok .benc ∧ encode .benc = 0b00000000000000000000000000010000#32 := by decide

/-- RSVD 000000000000000000000000, OP 0001, MODE 01, FAM 00 (R96). -/
theorem test_word_bdec :
    decode 0b00000000000000000000000000010100#32 = .ok .bdec ∧ encode .bdec = 0b00000000000000000000000000010100#32 := by decide

/-- RSVD 000000000000000000000000, OP 0001, MODE 00, FAM 01 (R96). -/
theorem test_word_senc :
    decode 0b00000000000000000000000000010001#32 = .ok .senc ∧ encode .senc = 0b00000000000000000000000000010001#32 := by decide

/-- RSVD 000000000000000000000000, OP 0001, MODE 01, FAM 01 (R96). -/
theorem test_word_sdec :
    decode 0b00000000000000000000000000010101#32 = .ok .sdec ∧ encode .sdec = 0b00000000000000000000000000010101#32 := by decide

/-- RSVD 000000000000000000000000, OP 0010, MODE 00, FAM 00 (R96). -/
theorem test_word_pad :
    decode 0b00000000000000000000000000100000#32 = .ok .pad ∧ encode .pad = 0b00000000000000000000000000100000#32 := by decide

/-- RSVD 000000000000000000000000, OP 0011, MODE 00, FAM 00 (R96). -/
theorem test_word_depad :
    decode 0b00000000000000000000000000110000#32 = .ok .depad ∧ encode .depad = 0b00000000000000000000000000110000#32 := by decide

/-- RSVD 000000000000000000000000, OP 0100, MODE 00, FAM 00 (R96). -/
theorem test_word_kxor :
    decode 0b00000000000000000000000001000000#32 = .ok .kxor ∧ encode .kxor = 0b00000000000000000000000001000000#32 := by decide

/-- RSVD 000000000000000000000000, OP 0101, MODE 00, FAM 00 (R96). -/
theorem test_word_swap :
    decode 0b00000000000000000000000001010000#32 = .ok .swap ∧ encode .swap = 0b00000000000000000000000001010000#32 := by decide

/-- The opcode table's own bit numbers. -/
theorem test_table_word :
    decodeTableWord 32 0x50 = some .swap ∧ decodeTableWord 32 0x51 = none := by decide

/-- V-PAD-6: 17 bytes, a second block. -/
theorem test_pad_second_block :
    buffer (exec .pad (holding [] (countUp 0 17))) = some (32, countUp 0 17 ++ List.replicate 15 0x81) := by decide +kernel

/-- V-PAD-7: 63 bytes fill the capacity exactly. -/
theorem test_pad_fills_capacity :
    buffer (exec .pad (holding [] (countUp 0 63))) = some (64, countUp 0 63 ++ [0x81]) := by decide +kernel

/-- V-DEP-1: the inner 81 stays, the removed bytes keep their value. -/
theorem test_depad_stops_at_content :
    buffer (exec .depad (holding [] [0x41, 0x81, 0x42, 0x81, 0x81])) = some (3, [0x41, 0x81, 0x42, 0x81, 0x81]) := by decide +kernel

/-- V-DEP-2: all 0x81 empties the buffer. -/
theorem test_depad_empties :
    buffer (exec .depad (holding [] [0x81, 0x81, 0x81])) = some (0, [0x81, 0x81, 0x81]) := by decide +kernel

/-- V-KX-2: the key wraps twice. -/
theorem test_kxor_wraps_key :
    buffer (exec .kxor (holding [0x10, 0x20, 0x30] (countUp 0 7))) = some (7, [0x10, 0x21, 0x32, 0x13, 0x24, 0x35, 0x16]) := by decide +kernel

/-- V-KX-4: a key longer than the data. -/
theorem test_kxor_long_key :
    buffer (exec .kxor (holding [0x10, 0x20, 0x30, 0x40, 0x50] [0x01, 0x02, 0x03])) = some (3, [0x11, 0x22, 0x33]) := by decide +kernel

/-- V-SWP-11: odd length, and parity is unsigned bit 0. -/
theorem test_swap_odd_length :
    buffer (exec .swap (holding [0x81, 0x80] (countUp 0 5))) = some (5, [0x04, 0x01, 0x02, 0x03, 0x00]) := by decide +kernel

/-- V-SWP-16: eight pairs, each tested twice. -/
theorem test_swap_sixteen :
    buffer (exec .swap (holding [0x61, 0x62, 0x63] (countUp 0 16))) =
      some (16, [0x00, 0x0E, 0x0D, 0x03, 0x0B, 0x0A, 0x06, 0x08, 0x07, 0x09, 0x05, 0x04, 0x0C, 0x02, 0x01, 0x0F]) := by decide +kernel

/-- V-BLK-1: HELLO. -/
theorem test_benc_hello :
    buffer (exec .benc (holding [0x61, 0x62, 0x63] [0x48, 0x45, 0x4C, 0x4C, 0x4F])) =
      some (16, [0x29, 0xE2, 0xE3, 0x2D, 0xE2, 0xE3, 0xE0, 0xE2, 0xE3, 0xE0, 0xE2, 0x2D, 0xE0, 0x2F, 0x27, 0xE0]) := by decide +kernel

/-- V-BLK-4: 17 bytes. -/
theorem test_benc_second_block :
    buffer (exec .benc (holding [0x61, 0x62, 0x63] (countUp 0 17))) =
      some (32, [0xE3, 0xE0, 0x61, 0xE3, 0xE0, 0x66, 0xE3, 0xE0, 0x6B, 0xE3, 0xE0, 0x68, 0xE3, 0xE0, 0x6D, 0x72] ++
        [0x6E, 0xE2, 0x6F, 0x6D, 0xE2, 0x68, 0x68, 0xE2, 0x65, 0x67, 0xE2, 0x66, 0x62, 0xE2, 0x63, 0x61]) := by decide +kernel

/-- V-BLK-6: the inherited corruption, a plaintext that ends in 0x81 comes back without it. -/
theorem test_bdec_strips_content :
    buffer (exec .bdec (holding [0x61, 0x62, 0x63]
        [0x51, 0x5D, 0x5F, 0x52, 0x58, 0x58, 0x57, 0x5B, 0x55, 0x58, 0x56, 0x56, 0x5D, 0x51, 0x53, 0xE0])) =
      some (15, countUp 0x30 15 ++ [0x81]) := by decide +kernel

/-- V-BLK-10: a length that is not a multiple of 16. -/
theorem test_bdec_any_length :
    buffer (exec .bdec (holding [0x61, 0x62, 0x63] (countUp 0 17))) =
      some (17, [0x61, 0x6D, 0x6D, 0x62, 0x6E, 0x68, 0x67, 0x6B, 0x6B, 0x66, 0x68, 0x66, 0x65, 0x6F, 0x61, 0x60, 0x72]) := by decide +kernel

/-- V-STR-3: no padding. -/
theorem test_senc_no_padding :
    buffer (exec .senc (holding [0x10, 0x20, 0x30] (countUp 0 7))) = some (7, [0x10, 0x21, 0x32, 0x13, 0x24, 0x35, 0x16]) := by decide +kernel

/-- V-STR-5: a trailing 0x81 is safe in stream mode. -/
theorem test_senc_keeps_81 :
    buffer (exec .senc (holding [0x05] [0x41, 0x81])) = some (2, [0x44, 0x84]) := by decide +kernel

/-- V-STR-2: the source's own example. -/
theorem test_sdec_source_example :
    buffer (exec .sdec (holding [0x05] [0x44, 0x47, 0x46, 0x41])) = some (4, [0x41, 0x42, 0x43, 0x44]) := by decide +kernel

/-- V-STR-4. -/
theorem test_sdec_wraps_key :
    buffer (exec .sdec (holding [0x10, 0x20, 0x30] [0x10, 0x21, 0x32, 0x13, 0x24, 0x35, 0x16])) = some (7, countUp 0 7) := by decide +kernel

/-- The source's functions, as the claims state them, on V-BLK-1. -/
theorem test_source_functions :
    Source.blockEncrypt [0x48, 0x45, 0x4C, 0x4C, 0x4F] [0x61, 0x62, 0x63] = [0x29, 0xE2, 0xE3, 0x2D, 0xE2, 0xE3, 0xE0, 0xE2, 0xE3, 0xE0, 0xE2, 0x2D, 0xE0, 0x2F, 0x27, 0xE0] ∧
      Source.blockDecrypt [0x29, 0xE2, 0xE3, 0x2D, 0xE2, 0xE3, 0xE0, 0xE2, 0xE3, 0xE0, 0xE2, 0x2D, 0xE0, 0x2F, 0x27, 0xE0] [0x61, 0x62, 0x63] = [0x48, 0x45, 0x4C, 0x4C, 0x4F] := by decide +kernel

/-- An engine read of a byte nothing has filled is a fault (U1). -/
theorem test_unfilled_engine_read :
    faultOf (exec .kxor { holding [0x05] [0x41] with len := 2 }) = some (.unfilledData 1) := by decide +kernel

/-- V-ERR-17: completion sets DONE and clears BUSY. -/
theorem test_step_completes :
    statusAfter (step (inFlight .senc [0x05] [0x41])) = some 0x00000002 := by decide +kernel

/-- A command word placed in flight runs as the first step after reset. -/
theorem test_first_instruction :
    (after (step (State.reset.withFetchWord 32 0x20))).map (fun t => (t.cmd, t.status.word)) = some (0x20, 0x2) := by rfl

/-- V-ERR-3: the selector is checked before the key. -/
theorem test_issue_selector_first :
    statusAfter (step (given (holding [] [0x41, 0x42, 0x43, 0x44]) [sw 0x000 0x00000013])) = some 0x00000006 := by decide +kernel

/-- V-ERR-13: LENGTH_RANGE before EMPTY_KEY. -/
theorem test_issue_length_before_key :
    statusAfter (step (given { holding [] [] with len := 65 } [sw 0x000 0x00000010])) = some 0x0000000E := by decide +kernel

/-- V-ERR-11: SWAP with LEN = 0 still needs a key. -/
theorem test_issue_empty_key :
    statusAfter (step (given (holding [] []) [sw 0x000 0x00000050])) = some 0x0000000A := by decide +kernel

/-- V-ERR-15: PAD ignores KEYLEN. -/
theorem test_issue_pad_ignores_keylen :
    statusAfter (step (given { holding [] [] with len := 4, keylen := 17 } [sw 0x000 0x00000020])) = some 0x00000001 := by decide +kernel

/-- V-BUS-4 and V-BUS-5: little-endian. -/
theorem test_word_write :
    (after (step (given (holding [] []) [sw 0x10000 0x44434241]))).map (fun t => t.dbuf) =
      some [(0, 0x41), (1, 0x42), (2, 0x43), (3, 0x44)] := by decide +kernel

/-- V-BUS-5. -/
theorem test_half_read :
    answerAfter (step (given (holding [] [0x41, 0x42, 0x43, 0x44]) [lh 0x10002])) = some (.data 0x4443) := by decide +kernel

/-- V-BUS-7, V-BUS-8, V-BUS-9: wrong width, reserved offset, misaligned. -/
theorem test_bus_errors :
    answerAfter (step (given (holding [] []) [lh 0x004])) = some (.busError 0x004) ∧
      answerAfter (step (given (holding [] []) [lw 0x020])) = some (.busError 0x020) ∧
      answerAfter (step (given (holding [] []) [lw 0x10001])) = some (.busError 0x10001) := by decide +kernel

/-- V-BUS-11 and V-BUS-12: past the end of each window. -/
theorem test_window_ends :
    answerAfter (step (given (holding [] []) [sb 0x10040 0])) = some (.busError 0x10040) ∧
      answerAfter (step (given (holding [] []) [sb 0x1010 0])) = some (.busError 0x1010) := by decide +kernel

/-- V-BUS-13: a write in flight is dropped and shows. -/
theorem test_write_while_busy :
    statusAfter (step (given (inFlight .senc [0x05] [0x41]) [sb 0x10000 0x99])) = some 0x00000101 := by decide +kernel

/-- V-BUS-17: the bus error wins over the drop. -/
theorem test_bus_error_while_busy :
    statusAfter (step (given (inFlight .senc [0x05] [0x41]) [sw 0x10001 0])) = some 0x00000001 := by decide +kernel

/-- V-BUS-18 and V-BUS-19: bit 8 alone clears WRBUSY. -/
theorem test_status_write :
    statusAfter (step (given (dropWrite (holding [] [])) [sw 0x004 0xFFFFFEFF])) = some 0x00000100 ∧
      statusAfter (step (given (dropWrite (finish (holding [] []))) [clrwrbusy])) = some 0x00000002 := by decide +kernel

/-- V-BUS-1: the read-only registers. -/
theorem test_read_only_registers :
    answerAfter (step (given (holding [] []) [lw 0x010])) = some (.data 0x40) ∧
      answerAfter (step (given (holding [] []) [lw 0x014])) = some (.data 0x10) ∧
      answerAfter (step (given (holding [] []) [lw 0x018])) = some (.data 0x10) ∧
      answerAfter (step (given (holding [] []) [lw 0x01C])) = some (.data 0x81) := by decide +kernel

/-- A reset in flight abandons the command (R221). -/
theorem test_reset_in_flight :
    (after (step (given (inFlight .senc [0x05] [0x41]) [.reset]))).map (fun t => (t.status.word, t.len, t.dbuf)) =
      some (0, 0, []) := by decide +kernel

/-- loaddata 41 42 (R104). -/
theorem test_load_data :
    loadData [0x41, 0x42] = [.write 0x10000 .one 0x41, .write 0x10001 .one 0x42, .write 0x008 .four 2] := by decide +kernel

/-! Witnesses: for each obligation with hypotheses, values that meet all of them together. -/

/-- The hypotheses of StepFollowsTheSchedule. -/
theorem witness_StepFollowsTheSchedule :
    EngineTurn (inFlight .benc [0x61, 0x62, 0x63] [0x41]) ∧ (inFlight .benc [0x61, 0x62, 0x63] [0x41]).status.busy = true ∧
      decode (inFlight .benc [0x61, 0x62, 0x63] [0x41]).cmd = .ok .benc := by decide +kernel

/-- The hypotheses of StepFollowsTheSchedule. -/
theorem witness_StepFollowsTheSchedule_scheduled :
    EngineTurn (given (inFlight .depad [] [0x41]) [.engine, lw 4]) ∧
      (given (inFlight .depad [] [0x41]) [.engine, lw 4]).status.busy = true ∧
      decode (given (inFlight .depad [] [0x41]) [.engine, lw 4]).cmd = .ok .depad := by decide +kernel

/-- The hypotheses of StepFollowsTheSchedule. -/
theorem witness_StepFollowsTheSchedule_idle :
    EngineTurn (holding [] []) ∧ (holding [] []).status.busy = false := by decide +kernel

/-- The hypotheses of StepFollowsTheSchedule. -/
theorem witness_StepFollowsTheSchedule_events :
    (given (holding [] []) [lw 4]).inputs = .read 4 .four :: [] ∧
      (given (holding [] []) [sw 8 3]).inputs = .write 8 .four 3 :: [] ∧ (given (holding [] []) [.reset]).inputs = .reset :: [] := by decide +kernel

/-- The hypotheses of AcceptedIssueStartsTheCommand. -/
theorem witness_AcceptedIssueStartsTheCommand :
    (given (holding [0x05] [0x41]) [sw 0 0x11]).inputs = .write 0 .four 0x11 :: [] ∧ (given (holding [0x05] [0x41]) [sw 0 0x11]).status.busy = false ∧
      validate 0x11 (given (holding [0x05] [0x41]) [sw 0 0x11]) = .none := by decide +kernel

/-- The hypotheses of RejectedIssueOnlyReports. -/
theorem witness_RejectedIssueOnlyReports :
    (given (holding [] [0x41]) [sw 0 0x11]).inputs = .write 0 .four 0x11 :: [] ∧ (given (holding [] [0x41]) [sw 0 0x11]).status.busy = false ∧
      validate 0x11 (given (holding [] [0x41]) [sw 0 0x11]) ≠ .none := by decide +kernel

/-- The hypotheses of HostWritesAreDroppedWhileBusy. -/
theorem witness_HostWritesAreDroppedWhileBusy_register :
    (given (inFlight .senc [0x05] [0x41]) [.write 0x00C .four 1]).inputs = .write 0x00C .four 1 :: [] ∧ capsLegal (given (inFlight .senc [0x05] [0x41]) [.write 0x00C .four 1]) = true ∧ (given (inFlight .senc [0x05] [0x41]) [.write 0x00C .four 1]).status.busy = true ∧
      ((0x00C : Word) = 0x000 ∨ (0x00C : Word) = 0x008 ∨ (0x00C : Word) = 0x00C) := by decide +kernel

/-- The hypotheses of HostWritesAreDroppedWhileBusy. -/
theorem witness_HostWritesAreDroppedWhileBusy_key :
    (given (inFlight .senc [0x05] [0x41]) [.write 0x100F .one 1]).inputs = .write 0x100F .one 1 :: [] ∧ capsLegal (given (inFlight .senc [0x05] [0x41]) [.write 0x100F .one 1]) = true ∧ (given (inFlight .senc [0x05] [0x41]) [.write 0x100F .one 1]).status.busy = true ∧
      KeyAccess (given (inFlight .senc [0x05] [0x41]) [.write 0x100F .one 1]) 0x100F .one := by decide +kernel

/-- The hypotheses of HostWritesAreDroppedWhileBusy. -/
theorem witness_HostWritesAreDroppedWhileBusy_data :
    (given (inFlight .senc [0x05] [0x41]) [.write 0x1003C .four 1]).inputs = .write 0x1003C .four 1 :: [] ∧ capsLegal (given (inFlight .senc [0x05] [0x41]) [.write 0x1003C .four 1]) = true ∧ (given (inFlight .senc [0x05] [0x41]) [.write 0x1003C .four 1]).status.busy = true ∧
      DataAccess (given (inFlight .senc [0x05] [0x41]) [.write 0x1003C .four 1]) 0x1003C .four := by decide +kernel

/-- The hypotheses of KeyCommandsFailAfterReset. -/
theorem witness_KeyCommandsFailAfterReset :
    (given (holding [] [0x41]) [.write 0 .four (encode .swap)]).inputs = .write 0 .four (encode .swap) :: [] ∧ (given (holding [] [0x41]) [.write 0 .four (encode .swap)]).status.busy = false ∧ (given (holding [] [0x41]) [.write 0 .four (encode .swap)]).keylen = 0 ∧
      (given (holding [] [0x41]) [.write 0 .four (encode .swap)]).len.toNat ≤ (given (holding [] [0x41]) [.write 0 .four (encode .swap)]).bufcap.toNat ∧ Instr.swap ≠ .pad ∧ Instr.swap ≠ .depad := by decide +kernel

/-- The hypotheses of CmdChangesOnlyByAnAcceptedWrite. -/
theorem witness_CmdChangesOnlyByAnAcceptedWrite :
    ∃ t, step (given (holding [0x05] [0x41]) [sw 0 0x11]) = .next t ∧ t.cmd ≠ State.cmd (given (holding [0x05] [0x41]) [sw 0 0x11]) := ⟨_, rfl, by decide +kernel⟩

/-- The hypotheses of CmdChangesOnlyByAnAcceptedWrite. -/
theorem witness_CmdChangesOnlyByAnAcceptedWrite_reset :
    ∃ t, step (given (inFlight .senc [0x05] [0x41]) [.reset]) = .next t ∧ t.cmd ≠ State.cmd (given (inFlight .senc [0x05] [0x41]) [.reset]) := ⟨_, rfl, by decide +kernel⟩

/-- The hypotheses of ErrorReportLastsUntilTheNextIssue. -/
theorem witness_ErrorReportLastsUntilTheNextIssue :
    ∃ t, step (given (holding [] []) [sw 0 0x50]) = .next t ∧ t.status.err ≠ (State.status (given (holding [] []) [sw 0 0x50])).err := ⟨_, rfl, by decide +kernel⟩

/-- The hypotheses of ErrorReportLastsUntilTheNextIssue. -/
theorem witness_ErrorReportLastsUntilTheNextIssue_done :
    ∃ t, step (given (finish (holding [0x05] [0x41])) [sw 0 0x11]) = .next t ∧ ((State.status (given (finish (holding [0x05] [0x41])) [sw 0 0x11])).done = true ∧ t.status.done = false) := ⟨_, rfl, by decide +kernel⟩

/-- The hypotheses of BusySpansIssueToCompletion. -/
theorem witness_BusySpansIssueToCompletion_set :
    ∃ t, step (given (holding [0x05] [0x41]) [sw 0 0x11]) = .next t ∧ (State.status (given (holding [0x05] [0x41]) [sw 0 0x11])).busy = false ∧ t.status.busy = true := ⟨_, rfl, by decide +kernel⟩

/-- The hypotheses of BusySpansIssueToCompletion. -/
theorem witness_BusySpansIssueToCompletion_cleared :
    ∃ t, step (inFlight .senc [0x05] [0x41]) = .next t ∧ (State.status (inFlight .senc [0x05] [0x41])).busy = true ∧ t.status.busy = false := ⟨_, rfl, by decide +kernel⟩

/-- The hypotheses of WrbusyIsSticky. -/
theorem witness_WrbusyIsSticky_cleared :
    ∃ t, step (given (dropWrite (holding [] [])) [clrwrbusy]) = .next t ∧ (State.status (given (dropWrite (holding [] [])) [clrwrbusy])).wrbusy = true ∧ t.status.wrbusy = false := ⟨_, rfl, by decide +kernel⟩

/-- The hypotheses of WrbusyIsSticky. -/
theorem witness_WrbusyIsSticky_set :
    ∃ t, step (given (inFlight .senc [0x05] [0x41]) [sw 8 0]) = .next t ∧ (State.status (given (inFlight .senc [0x05] [0x41]) [sw 8 0])).wrbusy = false ∧ t.status.wrbusy = true := ⟨_, rfl, by decide +kernel⟩

/-- The hypotheses of BusyProtectsTheOperands. -/
theorem witness_BusyProtectsTheOperands :
    ∃ t, (given (inFlight .senc [0x05] [0x41]) [sw 8 0]).status.busy = true ∧ step (given (inFlight .senc [0x05] [0x41]) [sw 8 0]) = .next t ∧
      (given (inFlight .senc [0x05] [0x41]) [sw 8 0]).inputs.head? = some (.write 8 .four 0) := ⟨_, rfl, rfl, rfl⟩

/-- The hypotheses of ControlRegistersReadExactly. -/
theorem witness_ControlRegistersReadExactly :
    (given (inFlight .senc [0x05] [0x41]) [lw 0x01C]).inputs = .read 0x01C .four :: [] ∧
      (given (holding [] [0x41]) [lw 8]).inputs = .read 0x008 .four :: [] ∧
      (1 : Word) = (given (holding [] [0x41]) [lw 8]).len ∧ (given (holding [] [0x41]) [lw 8]).status.busy = false := by decide +kernel

/-- The hypotheses of ReadsInFlightAnswerAFreeValue. -/
theorem witness_ReadsInFlightAnswerAFreeValue_len :
    (given (inFlight .senc [0x05] [0x41]) [.read 0x008 .four]).inputs = .read 0x008 .four :: [] ∧ capsLegal (given (inFlight .senc [0x05] [0x41]) [.read 0x008 .four]) = true ∧ (given (inFlight .senc [0x05] [0x41]) [.read 0x008 .four]).status.busy = true ∧
      (0x008 : Word) = 0x008 := by decide +kernel

/-- The hypotheses of ReadsInFlightAnswerAFreeValue. -/
theorem witness_ReadsInFlightAnswerAFreeValue_data :
    (given (inFlight .senc [0x05] [0x41]) [.read 0x1003F .one]).inputs = .read 0x1003F .one :: [] ∧ capsLegal (given (inFlight .senc [0x05] [0x41]) [.read 0x1003F .one]) = true ∧ (given (inFlight .senc [0x05] [0x41]) [.read 0x1003F .one]).status.busy = true ∧
      DataAccess (given (inFlight .senc [0x05] [0x41]) [.read 0x1003F .one]) 0x1003F .one := by decide +kernel

/-- The hypotheses of WindowReadsAreLittleEndian. -/
theorem witness_WindowReadsAreLittleEndian_key :
    (given (holding [0x05, 0x06] [0x41, 0x42, 0x43, 0x44]) [.read 0x1000 .two]).inputs = .read 0x1000 .two :: [] ∧ capsLegal (given (holding [0x05, 0x06] [0x41, 0x42, 0x43, 0x44]) [.read 0x1000 .two]) = true ∧ KeyAccess (given (holding [0x05, 0x06] [0x41, 0x42, 0x43, 0x44]) [.read 0x1000 .two]) 0x1000 .two ∧
      ∀ k < Width.two.bytes, ((given (holding [0x05, 0x06] [0x41, 0x42, 0x43, 0x44]) [.read 0x1000 .two]).keymem.read ((0x1000 : Word).toNat - 0x1000 + k)).isSome = true := by decide +kernel

/-- The hypotheses of WindowReadsAreLittleEndian. -/
theorem witness_WindowReadsAreLittleEndian_data :
    (given (holding [0x05, 0x06] [0x41, 0x42, 0x43, 0x44]) [.read 0x10000 .four]).inputs = .read 0x10000 .four :: [] ∧ capsLegal (given (holding [0x05, 0x06] [0x41, 0x42, 0x43, 0x44]) [.read 0x10000 .four]) = true ∧ DataAccess (given (holding [0x05, 0x06] [0x41, 0x42, 0x43, 0x44]) [.read 0x10000 .four]) 0x10000 .four ∧
      (given (holding [0x05, 0x06] [0x41, 0x42, 0x43, 0x44]) [.read 0x10000 .four]).status.busy = false ∧
      ∀ k < Width.four.bytes, ((given (holding [0x05, 0x06] [0x41, 0x42, 0x43, 0x44]) [.read 0x10000 .four]).dbuf.read ((0x10000 : Word).toNat - 0x10000 + k)).isSome = true := by decide +kernel

/-- The hypotheses of UnfilledWindowReadFaults. -/
theorem witness_UnfilledWindowReadFaults_key :
    (given (holding [0x05, 0x06] [0x41, 0x42, 0x43, 0x44]) [.read 0x1000 .four]).inputs = .read 0x1000 .four :: [] ∧ capsLegal (given (holding [0x05, 0x06] [0x41, 0x42, 0x43, 0x44]) [.read 0x1000 .four]) = true ∧ KeyAccess (given (holding [0x05, 0x06] [0x41, 0x42, 0x43, 0x44]) [.read 0x1000 .four]) 0x1000 .four ∧
      2 < Width.four.bytes ∧ (given (holding [0x05, 0x06] [0x41, 0x42, 0x43, 0x44]) [.read 0x1000 .four]).keymem.read ((0x1000 : Word).toNat - 0x1000 + 2) = none := by decide +kernel

/-- The hypotheses of UnfilledWindowReadFaults. -/
theorem witness_UnfilledWindowReadFaults_data :
    (given (holding [0x05, 0x06] [0x41, 0x42, 0x43, 0x44]) [.read 0x1003F .one]).inputs = .read 0x1003F .one :: [] ∧ capsLegal (given (holding [0x05, 0x06] [0x41, 0x42, 0x43, 0x44]) [.read 0x1003F .one]) = true ∧ DataAccess (given (holding [0x05, 0x06] [0x41, 0x42, 0x43, 0x44]) [.read 0x1003F .one]) 0x1003F .one ∧
      (given (holding [0x05, 0x06] [0x41, 0x42, 0x43, 0x44]) [.read 0x1003F .one]).status.busy = false ∧ 0 < Width.one.bytes ∧ (given (holding [0x05, 0x06] [0x41, 0x42, 0x43, 0x44]) [.read 0x1003F .one]).dbuf.read ((0x1003F : Word).toNat - 0x10000 + 0) = none := by decide +kernel

/-- The hypotheses of WindowReadAfterWriteReturnsTheValue. -/
theorem witness_WindowReadAfterWriteReturnsTheValue_key :
    (given (holding [0x05, 0x06] [0x41, 0x42, 0x43, 0x44]) [.write 0x100C .four 7, .read 0x100C .four]).inputs = .write 0x100C .four 7 :: .read 0x100C .four :: [] ∧ capsLegal (given (holding [0x05, 0x06] [0x41, 0x42, 0x43, 0x44]) [.write 0x100C .four 7, .read 0x100C .four]) = true ∧
      (given (holding [0x05, 0x06] [0x41, 0x42, 0x43, 0x44]) [.write 0x100C .four 7, .read 0x100C .four]).status.busy = false ∧ KeyAccess (given (holding [0x05, 0x06] [0x41, 0x42, 0x43, 0x44]) [.write 0x100C .four 7, .read 0x100C .four]) 0x100C .four := by decide +kernel

/-- The hypotheses of WindowWritesStoreTheirBytes. -/
theorem witness_WindowWritesStoreTheirBytes_key :
    (given (holding [0x05, 0x06] [0x41, 0x42, 0x43, 0x44]) [.write 0x100C .four 7]).inputs = .write 0x100C .four 7 :: [] ∧ capsLegal (given (holding [0x05, 0x06] [0x41, 0x42, 0x43, 0x44]) [.write 0x100C .four 7]) = true ∧ (given (holding [0x05, 0x06] [0x41, 0x42, 0x43, 0x44]) [.write 0x100C .four 7]).status.busy = false ∧
      KeyAccess (given (holding [0x05, 0x06] [0x41, 0x42, 0x43, 0x44]) [.write 0x100C .four 7]) 0x100C .four := by decide +kernel

/-- The hypotheses of WindowReadAfterWriteReturnsTheValue. -/
theorem witness_WindowReadAfterWriteReturnsTheValue_data :
    (given (holding [0x05, 0x06] [0x41, 0x42, 0x43, 0x44]) [.write 0x1003E .two 7, .read 0x1003E .two]).inputs = .write 0x1003E .two 7 :: .read 0x1003E .two :: [] ∧ capsLegal (given (holding [0x05, 0x06] [0x41, 0x42, 0x43, 0x44]) [.write 0x1003E .two 7, .read 0x1003E .two]) = true ∧
      (given (holding [0x05, 0x06] [0x41, 0x42, 0x43, 0x44]) [.write 0x1003E .two 7, .read 0x1003E .two]).status.busy = false ∧ DataAccess (given (holding [0x05, 0x06] [0x41, 0x42, 0x43, 0x44]) [.write 0x1003E .two 7, .read 0x1003E .two]) 0x1003E .two := by decide +kernel

/-- The hypotheses of WindowWritesStoreTheirBytes. -/
theorem witness_WindowWritesStoreTheirBytes_data :
    (given (holding [0x05, 0x06] [0x41, 0x42, 0x43, 0x44]) [.write 0x1003E .two 7]).inputs = .write 0x1003E .two 7 :: [] ∧ capsLegal (given (holding [0x05, 0x06] [0x41, 0x42, 0x43, 0x44]) [.write 0x1003E .two 7]) = true ∧ (given (holding [0x05, 0x06] [0x41, 0x42, 0x43, 0x44]) [.write 0x1003E .two 7]).status.busy = false ∧
      DataAccess (given (holding [0x05, 0x06] [0x41, 0x42, 0x43, 0x44]) [.write 0x1003E .two 7]) 0x1003E .two := by decide +kernel

/-- The hypotheses of RegisterWritesWithBusyClear. -/
theorem witness_RegisterWritesWithBusyClear :
    (given (holding [] []) [sw 0x008 0xFFFFFFFF]).inputs = .write 0x008 .four 0xFFFFFFFF :: [] ∧
      (given (holding [] []) [sw 0x00C 1]).inputs = .write 0x00C .four 1 :: [] ∧ (holding [] []).status.busy = false ∧
      (given (holding [] []) [sw 0x004 0x100]).inputs = .write 0x004 .four 0x100 :: [] ∧
      (given (holding [] []) [sw 0x01C 1]).inputs = .write 0x01C .four 1 :: [] := by decide +kernel

/-- The hypotheses of IllegalAccessesGetABusError. -/
theorem witness_IllegalAccessesGetABusError_reserved :
    ¬ CsrAccess 0x020 .four ∧ ¬ KeyAccess (given (holding [] []) [.read 0x020 .four]) 0x020 .four ∧ ¬ DataAccess (given (holding [] []) [.read 0x020 .four]) 0x020 .four ∧
      (given (holding [] []) [.read 0x020 .four]).inputs = .read 0x020 .four :: [] := by decide +kernel

/-- The hypotheses of IllegalAccessesGetABusError. -/
theorem witness_IllegalAccessesGetABusError_narrow :
    ¬ CsrAccess 0x004 .two ∧ ¬ KeyAccess (given (holding [] []) [.read 0x004 .two]) 0x004 .two ∧ ¬ DataAccess (given (holding [] []) [.read 0x004 .two]) 0x004 .two ∧
      (given (holding [] []) [.read 0x004 .two]).inputs = .read 0x004 .two :: [] := by decide +kernel

/-- The hypotheses of IllegalAccessesGetABusError. -/
theorem witness_IllegalAccessesGetABusError_crossing :
    ¬ CsrAccess 0x1003F .two ∧ ¬ KeyAccess (given (holding [] []) [.read 0x1003F .two]) 0x1003F .two ∧ ¬ DataAccess (given (holding [] []) [.read 0x1003F .two]) 0x1003F .two ∧
      (given (holding [] []) [.read 0x1003F .two]).inputs = .read 0x1003F .two :: [] := by decide +kernel

/-- The hypotheses of IllegalAccessesGetABusError. -/
theorem witness_IllegalAccessesGetABusError_past_key :
    ¬ CsrAccess 0x1010 .one ∧ ¬ KeyAccess (given (holding [] []) [.read 0x1010 .one]) 0x1010 .one ∧ ¬ DataAccess (given (holding [] []) [.read 0x1010 .one]) 0x1010 .one ∧
      (given (holding [] []) [.read 0x1010 .one]).inputs = .read 0x1010 .one :: [] := by decide +kernel

/-- The hypotheses of IllegalAccessesGetABusError. -/
theorem witness_IllegalAccessesGetABusError_top :
    ¬ CsrAccess 0xFFFFFFFC .four ∧ ¬ KeyAccess (given (holding [] []) [.read 0xFFFFFFFC .four]) 0xFFFFFFFC .four ∧ ¬ DataAccess (given (holding [] []) [.read 0xFFFFFFFC .four]) 0xFFFFFFFC .four ∧
      (given (holding [] []) [.read 0xFFFFFFFC .four]).inputs = .read 0xFFFFFFFC .four :: [] := by decide +kernel

/-- The hypotheses of ReadsChangeNoStateOfTheBlock. -/
theorem witness_ReadsChangeNoStateOfTheBlock :
    ∃ t, (given (holding [0x05, 0x06] [0x41, 0x42, 0x43, 0x44]) [lw 0x00C]).inputs = .read 0x00C .four :: [] ∧ step (given (holding [0x05, 0x06] [0x41, 0x42, 0x43, 0x44]) [lw 0x00C]) = .next t ∧
      (holding [0x05, 0x06] [0x41, 0x42, 0x43, 0x44]).status.busy = false ∧ ∃ u, memRead (holding [0x05, 0x06] [0x41, 0x42, 0x43, 0x44]) 0x00C .four = .next u := ⟨_, rfl, rfl, rfl, _, rfl⟩

/-- The hypotheses of KeyChangesOnlyByHostWriteOrReset. -/
theorem witness_KeyChangesOnlyByHostWriteOrReset_keymem :
    ∃ t, step (given (holding [] []) [sb 0x1000 5]) = .next t ∧ t.keymem ≠ State.keymem (given (holding [] []) [sb 0x1000 5]) := ⟨_, rfl, by decide +kernel⟩

/-- The hypotheses of KeyChangesOnlyByHostWriteOrReset. -/
theorem witness_KeyChangesOnlyByHostWriteOrReset_keylen :
    ∃ t, step (given (holding [] []) [sw 0x00C 5]) = .next t ∧ t.keylen ≠ State.keylen (given (holding [] []) [sw 0x00C 5]) := ⟨_, rfl, by decide +kernel⟩

/-- The hypotheses of CapacitiesNeverChange. -/
theorem witness_CapacitiesNeverChange :
    ∃ t, step (inFlight .senc [0x05] [0x41]) = .next t := ⟨_, rfl⟩

/-- The hypotheses of ResetAbandonsEverything. -/
theorem witness_ResetAbandonsEverything :
    (given (inFlight .senc [0x05] [0x41]) [.reset]).inputs = .reset :: [] := by decide +kernel

/-- The hypotheses of PadFillsToTheBlock. -/
theorem witness_PadFillsToTheBlock :
    (holding [] (countUp 0 63)).len.toNat ≤ (holding [] (countUp 0 63)).bufcap.toNat ∧
      (holding [] (countUp 0 63)).bufcap.toNat % 16 = 0 := by decide +kernel

/-- The hypotheses of DepadStripsTheTrailingRun. -/
theorem witness_DepadStripsTheTrailingRun :
    (holding [] [0x41, 0x81, 0x81]).len.toNat ≤ (holding [] [0x41, 0x81, 0x81]).bufcap.toNat ∧ 1 ≤ (holding [] [0x41, 0x81, 0x81]).len.toNat ∧
      (∀ a, 1 ≤ a → a < (holding [] [0x41, 0x81, 0x81]).len.toNat → (holding [] [0x41, 0x81, 0x81]).dbuf.read a = some 0x81) ∧
      (∃ b, (holding [] [0x41, 0x81, 0x81]).dbuf.read (1 - 1) = some b ∧ b ≠ 0x81) ∧ dataFilled (holding [] [0x41, 0x81, 0x81]) (holding [] [0x41, 0x81, 0x81]).len.toNat := by
  refine ⟨by decide, by decide, fun a h1 h2 => ?_, ⟨0x41, by decide, by decide⟩, by decide⟩
  have h3 : a < 3 := h2
  interval_cases a <;> decide

/-- The hypotheses of KxorMixesEveryByteWithItsKeyByte. -/
theorem witness_KxorMixesEveryByteWithItsKeyByte :
    (holding [0x61, 0x62, 0x63] (countUp 0 5)).len.toNat ≤ (holding [0x61, 0x62, 0x63] (countUp 0 5)).bufcap.toNat ∧ 1 ≤ (holding [0x61, 0x62, 0x63] (countUp 0 5)).keylen.toNat ∧ (holding [0x61, 0x62, 0x63] (countUp 0 5)).keylen.toNat ≤ (holding [0x61, 0x62, 0x63] (countUp 0 5)).keycap.toNat ∧
      dataFilled (holding [0x61, 0x62, 0x63] (countUp 0 5)) (holding [0x61, 0x62, 0x63] (countUp 0 5)).len.toNat ∧ keyFilled (holding [0x61, 0x62, 0x63] (countUp 0 5)) (holding [0x61, 0x62, 0x63] (countUp 0 5)).len.toNat := by decide +kernel

/-- The hypotheses of StreamCommandsAreKeyXorAlone. -/
theorem witness_StreamCommandsAreKeyXorAlone :
    (Instr.senc = .senc ∨ Instr.senc = .sdec) ∧ (holding [0x61, 0x62, 0x63] (countUp 0 5)).len.toNat ≤ (holding [0x61, 0x62, 0x63] (countUp 0 5)).bufcap.toNat ∧ 1 ≤ (holding [0x61, 0x62, 0x63] (countUp 0 5)).keylen.toNat ∧ (holding [0x61, 0x62, 0x63] (countUp 0 5)).keylen.toNat ≤ (holding [0x61, 0x62, 0x63] (countUp 0 5)).keycap.toNat ∧
      dataFilled (holding [0x61, 0x62, 0x63] (countUp 0 5)) (holding [0x61, 0x62, 0x63] (countUp 0 5)).len.toNat ∧ keyFilled (holding [0x61, 0x62, 0x63] (countUp 0 5)) (holding [0x61, 0x62, 0x63] (countUp 0 5)).len.toNat := by decide +kernel

/-- The hypotheses of KeyXorTwiceRestoresTheBuffer. -/
theorem witness_KeyXorTwiceRestoresTheBuffer :
    Instr.senc ∈ [Instr.kxor, .senc, .sdec] ∧ Instr.sdec ∈ [Instr.kxor, .senc, .sdec] ∧
      (holding [0x61, 0x62, 0x63] (countUp 0 5)).len.toNat ≤ (holding [0x61, 0x62, 0x63] (countUp 0 5)).bufcap.toNat ∧ 1 ≤ (holding [0x61, 0x62, 0x63] (countUp 0 5)).keylen.toNat ∧ (holding [0x61, 0x62, 0x63] (countUp 0 5)).keylen.toNat ≤ (holding [0x61, 0x62, 0x63] (countUp 0 5)).keycap.toNat ∧
      dataFilled (holding [0x61, 0x62, 0x63] (countUp 0 5)) (holding [0x61, 0x62, 0x63] (countUp 0 5)).len.toNat ∧ keyFilled (holding [0x61, 0x62, 0x63] (countUp 0 5)) (holding [0x61, 0x62, 0x63] (countUp 0 5)).len.toNat := by decide +kernel

/-- The hypotheses of SwapComputesTheClosedForm. -/
theorem witness_SwapComputesTheClosedForm :
    (holding [0x61, 0x62, 0x63] (countUp 0 5)).len.toNat ≤ (holding [0x61, 0x62, 0x63] (countUp 0 5)).bufcap.toNat ∧ 1 ≤ (holding [0x61, 0x62, 0x63] (countUp 0 5)).keylen.toNat ∧ (holding [0x61, 0x62, 0x63] (countUp 0 5)).keylen.toNat ≤ (holding [0x61, 0x62, 0x63] (countUp 0 5)).keycap.toNat ∧
      dataFilled (holding [0x61, 0x62, 0x63] (countUp 0 5)) (holding [0x61, 0x62, 0x63] (countUp 0 5)).len.toNat ∧ keyFilled (holding [0x61, 0x62, 0x63] (countUp 0 5)) (holding [0x61, 0x62, 0x63] (countUp 0 5)).len.toNat ∧ 0 < 1 := by decide +kernel

/-- The hypotheses of SwapTwiceRestoresTheBuffer. -/
theorem witness_SwapTwiceRestoresTheBuffer :
    (holding [0x61, 0x62, 0x63] (countUp 0 16)).len.toNat ≤ (holding [0x61, 0x62, 0x63] (countUp 0 16)).bufcap.toNat ∧ 1 ≤ (holding [0x61, 0x62, 0x63] (countUp 0 16)).keylen.toNat ∧ (holding [0x61, 0x62, 0x63] (countUp 0 16)).keylen.toNat ≤ (holding [0x61, 0x62, 0x63] (countUp 0 16)).keycap.toNat ∧
      dataFilled (holding [0x61, 0x62, 0x63] (countUp 0 16)) (holding [0x61, 0x62, 0x63] (countUp 0 16)).len.toNat ∧ keyFilled (holding [0x61, 0x62, 0x63] (countUp 0 16)) (holding [0x61, 0x62, 0x63] (countUp 0 16)).len.toNat := by decide +kernel

/-- The hypotheses of SwapNeverLooksAtData. -/
theorem witness_SwapNeverLooksAtData :
    ∃ t t', (holding [0x01] [0x41, 0x42, 0x43]).len = (holding [0x01] [0x51, 0x52, 0x53]).len ∧
      (holding [0x01] [0x41, 0x42, 0x43]).keylen = (holding [0x01] [0x51, 0x52, 0x53]).keylen ∧
      (holding [0x01] [0x41, 0x42, 0x43]).keymem = (holding [0x01] [0x51, 0x52, 0x53]).keymem ∧
      exec .swap (holding [0x01] [0x51, 0x52, 0x53]) = .next t ∧ exec .swap (holding [0x01] [0x41, 0x42, 0x43]) = .next t' := ⟨_, _, rfl, rfl, rfl, rfl, rfl⟩

/-- The hypotheses of PipelinesAreStageChains. -/
theorem witness_PipelinesAreStageChains :
    capsLegal (holding [0x61, 0x62, 0x63] (countUp 0 5)) = true ∧ Ready .benc (holding [0x61, 0x62, 0x63] (countUp 0 5)) ∧ Ready .bdec (holding [0x61, 0x62, 0x63] (countUp 0 5)) := by decide +kernel

/-- The hypotheses of BencRefinesTheSourcePipeline. -/
theorem witness_BencRefinesTheSourcePipeline :
    capsLegal (holding [0x61, 0x62, 0x63] (countUp 0 5)) = true ∧ HoldsBuffer (holding [0x61, 0x62, 0x63] (countUp 0 5)) (countUp 0 5) ∧ HoldsKey (holding [0x61, 0x62, 0x63] (countUp 0 5)) [0x61, 0x62, 0x63] ∧ ([0x61, 0x62, 0x63] : List Byte) ≠ [] ∧
      (countUp 0 5).length ≤ (holding [0x61, 0x62, 0x63] (countUp 0 5)).bufcap.toNat ∧ ([0x61, 0x62, 0x63] : List Byte).length ≤ (holding [0x61, 0x62, 0x63] (countUp 0 5)).keycap.toNat := by decide +kernel

/-- The hypotheses of BdecRefinesTheSourcePipeline. -/
theorem witness_BdecRefinesTheSourcePipeline :
    capsLegal (holding [0x61, 0x62, 0x63] (countUp 0 5)) = true ∧ HoldsBuffer (holding [0x61, 0x62, 0x63] (countUp 0 5)) (countUp 0 5) ∧ HoldsKey (holding [0x61, 0x62, 0x63] (countUp 0 5)) [0x61, 0x62, 0x63] ∧ ([0x61, 0x62, 0x63] : List Byte) ≠ [] ∧
      (countUp 0 5).length ≤ (holding [0x61, 0x62, 0x63] (countUp 0 5)).bufcap.toNat ∧ ([0x61, 0x62, 0x63] : List Byte).length ≤ (holding [0x61, 0x62, 0x63] (countUp 0 5)).keycap.toNat := by decide +kernel

/-- The hypotheses of BlockRoundTripLosesOnlyTheTrailingRun. -/
theorem witness_BlockRoundTripLosesOnlyTheTrailingRun :
    capsLegal (holding [0x61, 0x62, 0x63] [0x41, 0x81, 0x81]) = true ∧ HoldsBuffer (holding [0x61, 0x62, 0x63] [0x41, 0x81, 0x81]) ([0x41] ++ List.replicate 2 0x81) ∧
      ([0x41] : List Byte).getLast? ≠ some 0x81 ∧ HoldsKey (holding [0x61, 0x62, 0x63] [0x41, 0x81, 0x81]) [0x61, 0x62, 0x63] ∧ ([0x61, 0x62, 0x63] : List Byte) ≠ [] ∧
      ([0x41] : List Byte).length + 2 ≤ (holding [0x61, 0x62, 0x63] [0x41, 0x81, 0x81]).bufcap.toNat ∧ ([0x61, 0x62, 0x63] : List Byte).length ≤ (holding [0x61, 0x62, 0x63] [0x41, 0x81, 0x81]).keycap.toNat := by decide +kernel

/-- The hypotheses of DepadAfterPad. -/
theorem witness_DepadAfterPad :
    (holding [] [0x41, 0x81, 0x81]).bufcap.toNat % 16 = 0 ∧ HoldsBuffer (holding [] [0x41, 0x81, 0x81]) ([0x41] ++ List.replicate 2 0x81) ∧
      ([0x41] : List Byte).getLast? ≠ some 0x81 ∧ ([0x41] : List Byte).length + 2 ≤ (holding [] [0x41, 0x81, 0x81]).bufcap.toNat := by decide +kernel

/-- The hypotheses of PadAndDepadAreIdempotent. -/
theorem witness_PadAndDepadAreIdempotent :
    (∃ t, exec .pad (holding [] [0x41, 0x81, 0x81]) = .next t) ∧ ∃ t, exec .depad (holding [] [0x41, 0x81, 0x81]) = .next t := ⟨⟨_, rfl⟩, _, rfl⟩

/-- The hypotheses of CompletionFrame. -/
theorem witness_CompletionFrame_benc :
    ∃ t, exec .benc (holding [0x01] [0x41, 0x42]) = .next t := ⟨_, rfl⟩

/-- The hypotheses of CompletionFrame. -/
theorem witness_CompletionFrame_bdec :
    ∃ t, exec .bdec (holding [0x01] [0x41, 0x42]) = .next t := ⟨_, rfl⟩

/-- The hypotheses of CompletionFrame. -/
theorem witness_CompletionFrame_senc :
    ∃ t, exec .senc (holding [0x01] [0x41, 0x42]) = .next t := ⟨_, rfl⟩

/-- The hypotheses of CompletionFrame. -/
theorem witness_CompletionFrame_sdec :
    ∃ t, exec .sdec (holding [0x01] [0x41, 0x42]) = .next t := ⟨_, rfl⟩

/-- The hypotheses of CompletionFrame. -/
theorem witness_CompletionFrame_pad :
    ∃ t, exec .pad (holding [0x01] [0x41, 0x42]) = .next t := ⟨_, rfl⟩

/-- The hypotheses of CompletionFrame. -/
theorem witness_CompletionFrame_depad :
    ∃ t, exec .depad (holding [0x01] [0x41, 0x42]) = .next t := ⟨_, rfl⟩

/-- The hypotheses of CompletionFrame. -/
theorem witness_CompletionFrame_kxor :
    ∃ t, exec .kxor (holding [0x01] [0x41, 0x42]) = .next t := ⟨_, rfl⟩

/-- The hypotheses of CompletionFrame. -/
theorem witness_CompletionFrame_swap :
    ∃ t, exec .swap (holding [0x01] [0x41, 0x42]) = .next t := ⟨_, rfl⟩

/-- The hypotheses of StepKeepsTheInvariant. -/
theorem witness_StepKeepsTheInvariant :
    ∃ t, (inFlight .senc [0x05] [0x41]).Inv ∧ step (inFlight .senc [0x05] [0x41]) = .next t := ⟨_, by decide +kernel, rfl⟩

/-- The hypotheses of OnlyUnfilledBytesCanStopTheMachine. -/
theorem witness_OnlyUnfilledBytesCanStopTheMachine :
    ({ inFlight .senc [0x05] [0x41] with dbuf := [] } : State).Inv ∧ step { inFlight .senc [0x05] [0x41] with dbuf := [] } = .fault (.unfilledData 0) := ⟨by decide +kernel, rfl⟩

/-- The hypotheses of CommandInFlightCompletes. -/
theorem witness_CommandInFlightCompletes :
    (inFlight .senc [0x05] [0x41]).Inv ∧ (inFlight .senc [0x05] [0x41]).status.busy = true ∧ (inFlight .senc [0x05] [0x41]).cmd = encode .senc ∧ EngineTurn (inFlight .senc [0x05] [0x41]) ∧
      (Instr.senc ≠ .pad → dataFilled (inFlight .senc [0x05] [0x41]) (inFlight .senc [0x05] [0x41]).len.toNat) ∧ keyFilled (inFlight .senc [0x05] [0x41]) (keyPositions .senc (inFlight .senc [0x05] [0x41])) := by decide +kernel

/-- The hypotheses of IssuedCommandEndsWhenTheHostStops. -/
theorem witness_IssuedCommandEndsWhenTheHostStops :
    (given (inFlight .senc [0x05] [0x41]) [lw 4, sw 8 0]).Inv ∧ (given (inFlight .senc [0x05] [0x41]) [lw 4, sw 8 0]).status.busy = true ∧ (given (inFlight .senc [0x05] [0x41]) [lw 4, sw 8 0]).cmd = encode .senc ∧
      (Instr.senc ≠ .pad → dataFilled (given (inFlight .senc [0x05] [0x41]) [lw 4, sw 8 0]) (given (inFlight .senc [0x05] [0x41]) [lw 4, sw 8 0]).len.toNat) ∧ keyFilled (given (inFlight .senc [0x05] [0x41]) [lw 4, sw 8 0]) (keyPositions .senc (given (inFlight .senc [0x05] [0x41]) [lw 4, sw 8 0])) ∧
      ∀ e ∈ (given (inFlight .senc [0x05] [0x41]) [lw 4, sw 8 0]).inputs, e = .read 0x004 .four ∨ ∃ addr n v, e = .write addr n v := by
  refine ⟨by decide +kernel, by decide, by decide, by decide, by decide, fun e he => ?_⟩
  have hl : e ∈ [lw 4, sw 8 0] := he
  have h : e = lw 4 ∨ e = sw 8 0 := by simpa using hl
  rcases h with rfl | rfl
  · exact .inl rfl
  · exact .inr ⟨_, _, _, rfl⟩

end Sys2Proof.Tests
end

section
/-! The two arithmetic functions of the operands: ceil16 (00_scope.md R17) and parity (R16). -/

namespace Sys2Proof.Machine

/-- The formula of R17, with the block size written out. -/
theorem ceil16_eq (n : Nat) : ceil16 n = n + (16 - n % 16) % 16 := rfl

/-- The numeric parity of a byte (R16) and its bit 0 are the same test. -/
theorem parity_eq_one_iff_getLsbD_zero (b : Byte) : parity b = 1 ↔ b.getLsbD 0 = true := by
  rw [parity, ← BitVec.testBit_toNat, Nat.testBit_zero, decide_eq_true_iff]

/-- Settles O31: the laws of `ceil16` give the least multiple, and bit 0 decides the parity. -/
theorem ceilingAndParityOfTheOperands : Obligations.CeilingAndParityOfTheOperands :=
  ⟨fun n => ⟨ceil16_mod n, (ceil16_bounds n).1, fun _ => ceil16_le, ceil16_eq n⟩,
    rfl, rfl, rfl, rfl,
    fun b => ⟨rfl, parity_eq_one_iff_getLsbD_zero b⟩⟩

end Sys2Proof.Machine
end

section
/-! The decoder against the encoder (30_encoding.md R96, R97), and what validation of a word reports (R98, R99). -/

namespace Sys2Proof.Machine

/-- Each command word of R96's table decodes to its command. -/
@[simp] theorem decode_encode (i : Instr) : decode (encode i) = .ok i := by
  cases i <;> decide

theorem encode_injective : Function.Injective encode := fun i j h => by
  have hd : decode (encode i) = decode (encode j) := congrArg decode h
  simpa using hd

/-- The decoder answers a command on that command's word alone. -/
theorem decode_eq_ok_iff {w : Word} {i : Instr} : decode w = .ok i ↔ w = encode i := by
  constructor
  · intro h
    unfold decode at h
    split_ifs at h <;> cases h <;> assumption
  · rintro rfl
    exact decode_encode i

/-- The commands that use the key are all but the two padding units (R98). -/
theorem usesKey_eq_true_iff {i : Instr} : usesKey i = true ↔ i ≠ .pad ∧ i ≠ .depad := by
  cases i <;> decide

/-- Validation of a command word runs the checks of LEN and KEYLEN in the order of R99. -/
theorem validate_encode (i : Instr) (s : State) :
    validate (encode i) s =
      if s.len.toNat > s.bufcap.toNat then .lengthRange
      else if (i ≠ .pad ∧ i ≠ .depad) ∧ s.keylen.toNat > s.keycap.toNat then .lengthRange
      else if (i ≠ .pad ∧ i ≠ .depad) ∧ s.keylen.toNat = 0 then .emptyKey
      else .none := by
  simp only [validate, decode_encode, usesKey_eq_true_iff, gt_iff_lt]

/-- A command word can fail the checks of LEN and KEYLEN alone. -/
theorem validate_encode_ne_invalidSelector (i : Instr) (s : State) : validate (encode i) s ≠ .invalidSelector := by
  rw [validate_encode]
  split_ifs <;> decide

/-- Validation rejects the selector of exactly the words outside R96's table (R97). -/
theorem validate_eq_invalidSelector_iff {w : Word} {s : State} :
    validate w s = .invalidSelector ↔ ∀ i, w ≠ encode i := by
  constructor
  · rintro h i rfl
    exact validate_encode_ne_invalidSelector i s h
  · intro h
    cases hd : decode w with
    | ok i => exact absurd (decode_eq_ok_iff.1 hd) (h i)
    | error r => simp only [validate, hd]

/-- No command has the word zero: its OP would be 0 (R94). -/
theorem zero_ne_encode (i : Instr) : (0 : Word) ≠ encode i := by
  cases i <;> decide

/-- Settles O3: the decoder is the inverse of the encoder on the table, and validation names the selector
on the words outside it. -/
theorem invalidSelectorExactlyOutsideTheTable : Obligations.InvalidSelectorExactlyOutsideTheTable :=
  ⟨fun _ _ h => encode_injective h,
    fun _ _ => validate_eq_invalidSelector_iff,
    fun _ _ => decode_eq_ok_iff,
    fun _ => validate_eq_invalidSelector_iff.2 zero_ne_encode⟩

/-- Settles O5: validation is the chain of R99's checks on a command word, and reads no memory. -/
theorem validationReportsTheFirstFailure : Obligations.ValidationReportsTheFirstFailure :=
  ⟨fun _ _ => validate_eq_invalidSelector_iff.2, validate_encode, fun _ _ _ _ => rfl⟩

end Sys2Proof.Machine
end

section
/-! The padding unit (40_padding.md): what PAD (R120) and DEPAD (R122) do to the block, and the one after the
other (R126). -/

namespace Sys2Proof.Machine

variable {s : State}

/-- `Pad()` completes when the padded length is within the capacity, and appends the pad bytes. -/
theorem pad_appends (h : ceil16 s.len.toNat ≤ s.bufcap.toNat) :
    ∃ m, pad s = .ok ((s.setDbuf m).setLen (BitVec.ofNat 32 (ceil16 s.len.toNat))) ∧
      ∀ a, m.read a = if s.len.toNat ≤ a ∧ a < ceil16 s.len.toNat then some padByte else s.dbuf.read a := by
  have hadd := Nat.add_sub_cancel' (ceil16_bounds s.len.toNat).1
  obtain ⟨m, hm, hr⟩ := padFill_fills (hadd.le.trans h)
  rw [hadd] at hr
  exact ⟨m, bind_eq_ok.2 ⟨_, hm, rfl⟩, hr⟩

/-- Within the capacity the depad loop answers r exactly where the bytes from r on are pad bytes and the one
before r, if any, is a filled byte of another value. -/
theorem depadLength_eq_ok_iff {n r : Nat} (hc : n ≤ s.bufcap.toNat) :
    depadLength s n = .ok r ↔ r ≤ n ∧ (∀ a, r ≤ a → a < n → s.dbuf.read a = some padByte) ∧
      (r = 0 ∨ ∃ b, s.dbuf.read (r - 1) = some b ∧ b ≠ padByte) := by
  refine ⟨depadLength_eq_ok, ?_⟩
  rintro ⟨hrn, hrun, hstop⟩
  induction n, hrn using Nat.le_induction with
  | base =>
    cases r with
    | zero => rfl
    | succ r =>
      obtain ⟨b, hb, hne⟩ := hstop.resolve_left r.succ_ne_zero
      exact bind_eq_ok.2 ⟨b, readData_eq_ok.2 ⟨hc, hb⟩, if_neg hne⟩
  | succ n hrn ih =>
    have hlast : readData s n = .ok padByte := readData_eq_ok.2 ⟨hc, hrun n hrn n.lt_succ_self⟩
    have hrest := ih (Nat.le_of_succ_le hc) fun a hra han => hrun a hra (Nat.lt_succ_of_lt han)
    exact bind_eq_ok.2 ⟨_, hlast, (if_pos rfl).trans hrest⟩

/-- The source's padding lengthens a byte sequence to the next multiple of 16. -/
@[simp] theorem length_sourcePad (p : List Byte) : (Source.pad p).length = ceil16 p.length := by
  simp [Source.pad, ceil16_eq]

/-- A state that PAD answers holds the source's padding of the buffer it was given. -/
theorem holdsBuffer_sourcePad {t : State} {p : List Byte} (h : HoldsBuffer s p)
    (hlen : t.len.toNat = ceil16 s.len.toNat)
    (hr : ∀ a, t.dbuf.read a = if s.len.toNat ≤ a ∧ a < ceil16 s.len.toNat then some padByte else s.dbuf.read a) :
    HoldsBuffer t (Source.pad p) := by
  obtain ⟨hp, hread⟩ := h
  rw [hp] at hlen hr
  refine ⟨by rw [hlen, length_sourcePad], fun a ha => ?_⟩
  rw [length_sourcePad] at ha
  rw [hr, Source.pad]
  rcases Nat.lt_or_ge a p.length with hlt | hge
  · rw [if_neg (by omega), hread a hlt, List.getElem?_append_left hlt]
  · have hnew : a - p.length < (16 - p.length % 16) % 16 := by rw [ceil16_eq] at ha; omega
    rw [if_pos ⟨hge, ha⟩, List.getElem?_append_right hge, List.getElem?_replicate_of_lt hnew, padByte]

/-- Behind a first part q, a buffer that ends in a run of one byte holds that byte. -/
theorem HoldsBuffer.read_run {q : List Byte} {r a : Nat} {b : Byte} (h : HoldsBuffer s (q ++ List.replicate r b))
    (hq : q.length ≤ a) (ha : a < s.len.toNat) : s.dbuf.read a = some b := by
  obtain ⟨hlen, hread⟩ := h
  have har : a - q.length < r := by simp at hlen; omega
  rw [hread a (hlen ▸ ha), List.getElem?_append_right hq, List.getElem?_replicate_of_lt har]

/-- The first part q of the buffer is empty, or its last byte is filled and is not the excluded c. -/
theorem HoldsBuffer.read_last_of_append {q p : List Byte} {c : Byte} (h : HoldsBuffer s (q ++ p))
    (hlast : q.getLast? ≠ some c) : q.length = 0 ∨ ∃ b, s.dbuf.read (q.length - 1) = some b ∧ b ≠ c := by
  obtain rfl | ⟨q, b, rfl⟩ := q.eq_nil_or_concat
  · exact .inl rfl
  · refine .inr ⟨b, ?_, fun hb => hlast (by simp [hb])⟩
    simpa using h.2 q.length (by simp)

/-- `Depad()` on q and a run of pad bytes leaves LEN at the length of q, where q does not end in a pad byte. -/
theorem depad_of_holdsBuffer {q : List Byte} {r : Nat} (h : HoldsBuffer s (q ++ List.replicate r padByte))
    (hlast : q.getLast? ≠ some padByte) (hc : s.len.toNat ≤ s.bufcap.toNat) :
    depad s = .ok (s.setLen (BitVec.ofNat 32 q.length)) := by
  have hq : q.length ≤ s.len.toNat := by rw [h.1]; simp
  have hloop : depadLength s s.len.toNat = .ok q.length :=
    (depadLength_eq_ok_iff hc).2 ⟨hq, fun _ => HoldsBuffer.read_run h, HoldsBuffer.read_last_of_append h hlast⟩
  exact bind_eq_ok.2 ⟨_, hloop, rfl⟩

/-- Settles O32: the padded length is within a capacity that is a multiple of 16, so the fill loop runs to
its end. -/
theorem padFillsToTheBlock : Obligations.PadFillsToTheBlock := by
  intro s hlen hcap
  have hceil := ceil16_le hlen hcap
  obtain ⟨m, hm, hr⟩ := pad_appends hceil
  exact ⟨ceil16_eq _, hceil, m, congrArg complete hm, hr⟩

/-- Settles O33: the run's start is what the depad loop answers, and over a filled buffer the loop answers. -/
theorem depadStripsTheTrailingRun : Obligations.DepadStripsTheTrailingRun := by
  intro s hlen
  constructor
  · intro r hr hrun hstop
    have hloop := (depadLength_eq_ok_iff hlen).2 ⟨hr, hrun, hstop⟩
    have hdepad : depad s = .ok (s.setLen (BitVec.ofNat 32 r)) := bind_eq_ok.2 ⟨r, hloop, rfl⟩
    exact congrArg complete hdepad
  · intro hfilled
    obtain ⟨r, hr⟩ := depadLength_total hlen hfilled
    exact ⟨r, depadLength_eq_ok hr⟩

/-- Settles O44: PAD's bytes lengthen the buffer's own trailing run, and DEPAD strips both down to q. -/
theorem depadAfterPad : Obligations.DepadAfterPad := by
  intro s q r hcap hbuf hlast hfit
  have hlen : s.len.toNat = q.length + r := by simpa using hbuf.1
  obtain ⟨-, hceil, m, hpad, hm⟩ := padFillsToTheBlock s (hlen.trans_le hfit) hcap
  have htlen : (BitVec.ofNat 32 (ceil16 s.len.toNat)).toNat = ceil16 s.len.toNat :=
    Nat.mod_eq_of_lt (hceil.trans_lt s.bufcap.isLt)
  have hqlen : (BitVec.ofNat 32 q.length).toNat = q.length := Nat.mod_eq_of_lt (by have := s.len.isLt; omega)
  have hpadded : HoldsBuffer (finish ((s.setDbuf m).setLen (BitVec.ofNat 32 (ceil16 s.len.toNat)))) (Source.pad _) :=
    holdsBuffer_sourcePad hbuf htlen hm
  rw [Source.pad, List.append_assoc, ← padByte, List.replicate_append_replicate] at hpadded
  have hdepad := depad_of_holdsBuffer hpadded hlast (htlen.trans_le hceil)
  refine ⟨_, _, hpad, congrArg complete hdepad, ?_, hqlen, fun a ha => ?_⟩
  · exact (congrArg (· + r) hqlen).trans hlen.symm
  · exact (hm a).trans (if_neg (by omega))

end Sys2Proof.Machine
end

section
/-! The cyclic-key XOR (41_key_xor.md): what KXOR does to the block (R140), and that the key XOR is its own
inverse (R143, R179). -/

namespace Sys2Proof.Machine

variable {s t : State} {a : Nat}

/-- SENC and SDEC run the same key XOR as KXOR (R174 to R176). -/
theorem exec_eq_exec_kxor {i : Instr} (h : i ∈ [.kxor, .senc, .sdec]) (s : State) : exec i s = exec .kxor s := by
  rw [List.mem_cons, List.mem_pair] at h
  obtain rfl | rfl | rfl := h <;> rfl

/-- DBUF[a] XOR K(a) has a value exactly where both bytes have one. -/
theorem isSome_xorAt (s : State) (a : Nat) :
    (xorAt s a).isSome = ((s.dbuf.read a).isSome && (s.keymem.read (a % s.keylen.toNat)).isSome) := by
  unfold xorAt
  cases s.dbuf.read a <;> cases s.keymem.read (a % s.keylen.toNat) <;> rfl

/-- A second XOR with the same filled key byte gives the first data byte back. -/
theorem xorAt_of_read_eq_xorAt (hkeylen : t.keylen = s.keylen) (hkeymem : t.keymem = s.keymem)
    (hk : (s.keymem.read (a % s.keylen.toNat)).isSome = true) (hr : t.dbuf.read a = xorAt s a) :
    xorAt t a = s.dbuf.read a := by
  obtain ⟨key, hkey⟩ := Option.isSome_iff_exists.1 hk
  cases hb : s.dbuf.read a with
  | none => simp [xorAt, hr, hb]
  | some b => simp [xorAt, hr, hb, hkeylen, hkeymem, hkey]

/-- Settles O34: the loop of R140 over all LEN positions, from position 0 on. -/
theorem kxorMixesEveryByteWithItsKeyByte : Obligations.KxorMixesEveryByteWithItsKeyByte := by
  intro s hlen hpos hcap hdata hkey
  obtain ⟨m, hm, hr⟩ := keyXorFrom_mixes (i := 0) (k := s.len.toNat) (by omega) (Nat.ne_of_gt hpos) hcap
    (fun a _ ha => hdata a (by omega)) (fun a _ ha => hkey a (by omega))
  exact ⟨m, congrArg complete hm, by simpa using hr⟩

/-- Settles O36: KXOR leaves its operands filled, so it completes again, and the second XOR undoes the first. -/
theorem keyXorTwiceRestoresTheBuffer : Obligations.KeyXorTwiceRestoresTheBuffer := by
  intro s i j hi hj hlen hpos hcap hdata hkey
  obtain ⟨m, hfirst, hm⟩ := kxorMixesEveryByteWithItsKeyByte s hlen hpos hcap hdata hkey
  have hmixed : ∀ a < s.len.toNat, m.read a = xorAt s a := fun a ha => (hm a).trans (if_pos ha)
  have hfilled : ∀ a < s.len.toNat, (m.read a).isSome = true := fun a ha => by
    rw [hmixed a ha, isSome_xorAt, hdata a ha, hkey a ha, Bool.and_self]
  obtain ⟨m', hsecond, hm'⟩ := kxorMixesEveryByteWithItsKeyByte
    { s with dbuf := m, status := { s.status with busy := false, done := true } } hlen hpos hcap hfilled hkey
  refine ⟨(exec_eq_exec_kxor hi s).trans (exec_eq_exec_kxor hj s).symm, _, _,
    (exec_eq_exec_kxor hi s).trans hfirst, (exec_eq_exec_kxor hj _).trans hsecond, rfl, fun a => ?_⟩
  rw [hm' a]
  split_ifs with ha
  · exact xorAt_of_read_eq_xorAt rfl rfl (hkey a ha) (hmixed a ha)
  · exact (hm a).trans (if_neg ha)

end Sys2Proof.Machine
end

section
/-! The position-swap permutation network (42_swap.md): the sequential walk of R150 composes the exchanges of its
iterations into the closed form of R153. -/

namespace Sys2Proof.Machine

variable {s t : State}

/-- Where the byte at position a comes from when the mirror pairs p < floor(n/2) with `c p` are exchanged and no
others (R152). -/
def mirrorWhere (n : Nat) (c : Nat → Bool) (a : Nat) : Nat :=
  if a < n ∧ mirrorPair n a < n / 2 ∧ c (mirrorPair n a) = true then n - 1 - a else a

/-- The closed form exchanges the pairs with c_p = 1. -/
theorem swapSource_eq_mirrorWhere (s : State) (n : Nat) : swapSource s n = mirrorWhere n (pairExchanged s n) := rfl

theorem mirrorPair_mirror {n a : Nat} (h : a < n) : mirrorPair n (n - 1 - a) = mirrorPair n a := by
  unfold mirrorPair
  omega

/-- The pairs are disjoint, so two layers of exchanges in a row exchange the pairs that exactly one of them does. -/
theorem mirrorWhere_mirrorWhere (n : Nat) (c d : Nat → Bool) (a : Nat) :
    mirrorWhere n c (mirrorWhere n d a) = mirrorWhere n (fun p => c p ^^ d p) a := by
  by_cases hin : a < n ∧ mirrorPair n a < n / 2
  · obtain ⟨ha, hp⟩ := hin
    cases hd : d (mirrorPair n a) with
    | false => simp [mirrorWhere, hd]
    | true =>
      have hmirror : n - 1 - a < n := by omega
      have hback : n - 1 - (n - 1 - a) = a := by omega
      cases hc : c (mirrorPair n a) <;> simp [mirrorWhere, ha, hp, hc, hd, hmirror, hback, mirrorPair_mirror ha]
  · have hstay : ∀ c, mirrorWhere n c a = a := fun c => if_neg fun ⟨ha, hp, _⟩ => hin ⟨ha, hp⟩
    simp only [hstay]

/-- Does iteration i exchange pair p: is p the pair it tests, i mod floor(n/2), and its key byte odd (R152)? -/
def exchangedAt (s : State) (n i p : Nat) : Bool := decide (i % (n / 2) = p ∧ keyParityAt s i = 1)

/-- The part of R153's c_p that the k iterations from i on contribute. -/
def pairExchangedIn (s : State) (n i k p : Nat) : Bool :=
  decide ((((List.range' i k).filter (fun j => decide (j % (n / 2) = p))).map (keyParityAt s)).sum % 2 = 1)

/-- All n iterations together contribute c_p. -/
theorem pairExchangedIn_all (s : State) (n : Nat) : pairExchangedIn s n 0 n = pairExchanged s n := by
  funext p
  rw [pairExchangedIn, pairExchanged, List.range_eq_range']

theorem keyParityAt_lt_two (s : State) (i : Nat) : keyParityAt s i < 2 := by
  unfold keyParityAt
  split
  · exact Nat.mod_lt _ Nat.two_pos
  · exact Nat.two_pos

/-- A bit added to a number flips the parity exactly when it is 1. -/
theorem decide_bit_add_mod_two {b : Nat} (h : b < 2) (r : Nat) :
    decide ((b + r) % 2 = 1) = (decide (b = 1) ^^ decide (r % 2 = 1)) := by
  rw [Bool.eq_iff_iff]
  simp only [decide_eq_true_eq, bne_iff_ne, ne_eq, decide_eq_decide]
  omega

/-- The first of k + 1 iterations flips the contribution of the rest on the pairs that it exchanges. -/
theorem pairExchangedIn_succ (s : State) (n i k : Nat) :
    pairExchangedIn s n i (k + 1) = fun p => exchangedAt s n i p ^^ pairExchangedIn s n (i + 1) k p := by
  funext p
  unfold pairExchangedIn exchangedAt
  rw [List.range'_succ, List.filter_cons]
  by_cases hp : i % (n / 2) = p
  · simp [hp, decide_bit_add_mod_two (keyParityAt_lt_two s i)]
  · simp [hp]

/-- The swap changes no key byte, so no parity either. -/
theorem WritesBuffer.pairExchangedIn_eq (h : WritesBuffer s t) : pairExchangedIn t = pairExchangedIn s := by
  rw [h.1]
  rfl

/-- A key byte that is read has the parity that the closed form counts. -/
theorem keyParityAt_of_keyAt {i : Nat} {key : Byte} (h : keyAt s i = .ok key) : keyParityAt s i = parity key := by
  obtain ⟨-, -, hread⟩ := keyAt_eq_ok.1 h
  rw [keyParityAt, hread]

/-- The cursors stand where R151 and R152 put them before iteration i: on a mirror pair, which is pair
i mod floor(n/2) where n ≥ 2. -/
def CursorsAt (n i start stop : Nat) : Prop :=
  start ≤ stop ∧ start + stop + 1 = n ∧ (n / 2 ≠ 0 → start = i % (n / 2))

theorem cursorsAt_zero {n : Nat} (h : n ≠ 0) : CursorsAt n 0 0 (n - 1) :=
  ⟨Nat.zero_le _, by omega, fun _ => (Nat.zero_mod _).symm⟩

/-- An iteration reads its key byte, exchanges or not, and goes on with the cursors of the next iteration. -/
theorem swapFrom_succ_eq_ok {n i k start stop : Nat} (hcur : CursorsAt n i start stop)
    (h : swapFrom n (k + 1) i start stop s = .ok t) :
    ∃ key u, keyAt s i = .ok key ∧ exchangeIfOdd key s start stop = .ok u ∧
      ∃ start' stop' : Nat, CursorsAt n (i + 1) start' stop' ∧ swapFrom n k (i + 1) start' stop' u = .ok t := by
  obtain ⟨hle, hsum, hmod⟩ := hcur
  obtain ⟨key, hkey, h⟩ := bind_eq_ok.1 h
  obtain ⟨u, hu, h⟩ := bind_eq_ok.1 h
  refine ⟨key, u, hkey, hu, ?_⟩
  split_ifs at h with hreset
  · refine ⟨0, n - 1, ⟨Nat.zero_le _, by omega, fun hP => ?_⟩, by rwa [Nat.cast_sub (by omega)]⟩
    have hlt := Nat.mod_lt i (Nat.pos_of_ne_zero hP)
    have hlast : i % (n / 2) + 1 = n / 2 := by rw [← hmod hP] at hlt ⊢; omega
    rw [← Nat.mod_add_mod, hlast, Nat.mod_self]
  · refine ⟨start + 1, stop - 1, ⟨by omega, by omega, fun hP => ?_⟩, by rwa [Nat.cast_sub (by omega)]⟩
    rw [← Nat.mod_add_mod, ← hmod hP, Nat.mod_eq_of_lt (by omega)]

/-- An exchange that completes puts each of the two bytes at the other's position. -/
theorem exchange_read {a b : Nat} (h : exchange s a b = .ok t) (c : Nat) :
    t.dbuf.read c = s.dbuf.read (if c = b then a else if c = a then b else c) := by
  have hcursor : ∀ c : Nat, cursorIndex (c : Int) = .ok c := fun c => by simp [cursorIndex]
  rw [exchange, hcursor, ok_bind, hcursor, ok_bind] at h
  obtain ⟨x, hx, h⟩ := bind_eq_ok.1 h
  obtain ⟨y, hy, h⟩ := bind_eq_ok.1 h
  obtain ⟨u, hu, h⟩ := bind_eq_ok.1 h
  obtain ⟨-, hx⟩ := readData_eq_ok.1 hx
  obtain ⟨-, hy⟩ := readData_eq_ok.1 hy
  obtain ⟨-, rfl⟩ := writeData_eq_ok.1 hu
  obtain ⟨-, rfl⟩ := writeData_eq_ok.1 h
  simp only [State.setDbuf_dbuf, Memory.read_write]
  split_ifs
  · exact hx.symm
  · exact hy.symm
  · rfl

/-- Iteration i exchanges its own mirror pair or nothing. -/
theorem exchangeIfOdd_read {n i start stop : Nat} {key : Byte} (hcur : CursorsAt n i start stop)
    (hkey : keyAt s i = .ok key) (h : exchangeIfOdd key s start stop = .ok t) (a : Nat) :
    t.dbuf.read a = s.dbuf.read (mirrorWhere n (exchangedAt s n i) a) := by
  obtain ⟨hle, hsum, hmod⟩ := hcur
  unfold exchangeIfOdd at h
  unfold mirrorWhere exchangedAt
  rw [keyParityAt_of_keyAt hkey]
  split_ifs at h with hodd
  · rw [exchange_read h]
    congr 1
    simp only [hodd, and_true, decide_eq_true_eq, mirrorPair]
    by_cases hP : n / 2 = 0
    · split_ifs <;> omega
    · have hlt := Nat.mod_lt i (Nat.pos_of_ne_zero hP)
      rw [← hmod hP] at hlt ⊢
      split_ifs <;> omega
  · cases h
    simp [hodd]

/-- A walk that completes exchanges the pairs that its iterations exchange an odd number of times. -/
theorem swapFrom_read {n k i start stop : Nat} (hcur : CursorsAt n i start stop)
    (h : swapFrom n k i start stop s = .ok t) (a : Nat) :
    t.dbuf.read a = s.dbuf.read (mirrorWhere n (pairExchangedIn s n i k) a) := by
  induction k generalizing i start stop s with
  | zero =>
    cases h
    simp [mirrorWhere, pairExchangedIn]
  | succ k ih =>
    obtain ⟨key, u, hkey, hu, start', stop', hcur', hrest⟩ := swapFrom_succ_eq_ok hcur h
    rw [ih hcur' hrest, exchangeIfOdd_read hcur hkey hu, mirrorWhere_mirrorWhere,
      (exchangeIfOdd_writes hu).pairExchangedIn_eq, pairExchangedIn_succ]

/-- `Swap()`, whenever it completes, answers the closed form of R153. -/
theorem swap_read (h : swap s = .ok t) (a : Nat) : t.dbuf.read a = s.dbuf.read (swapSource s s.len.toNat a) := by
  rw [swapSource_eq_mirrorWhere]
  unfold swap at h
  by_cases hn : s.len.toNat = 0
  · rw [hn] at h ⊢
    cases h
    simp [mirrorWhere]
  · rw [← pairExchangedIn_all]
    exact swapFrom_read (cursorsAt_zero hn) (by rwa [Nat.cast_sub (by omega)]) a

/-- `Swap()` completes over filled operands. -/
theorem swap_total (hlen : s.len.toNat ≤ s.bufcap.toNat) (hpos : 1 ≤ s.keylen.toNat)
    (hcap : s.keylen.toNat ≤ s.keycap.toNat) (hdata : dataFilled s s.len.toNat) (hkey : keyFilled s s.len.toNat) :
    ∃ t, swap s = .ok t := by
  by_cases hn : s.len.toNat = 0
  · exact ⟨s, by rw [swap, hn]; rfl⟩
  · obtain ⟨t, ht, -⟩ := swapFrom_total (i := 0) (k := s.len.toNat) (Nat.zero_le (s.len.toNat - 1)) (by omega) hlen
      (Nat.ne_of_gt hpos) hcap hdata (fun a _ ha => hkey a (by omega))
    exact ⟨t, by rwa [Nat.cast_sub (by omega)] at ht⟩

/-- A completed SWAP has changed DBUF, BUSY and DONE alone. -/
theorem exec_swap_of_swap (h : swap s = .ok t) :
    exec .swap s = .next { s with dbuf := t.dbuf, status := { s.status with busy := false, done := true } } := by
  rw [(swap_writes h).1] at h
  exact congrArg complete h

/-- Among P consecutive iterations one tests pair p. -/
theorem filter_range_mod_eq {P p : Nat} (hp : p < P) :
    (List.range P).filter (fun i => decide (i % P = p)) = [p] := by
  have hmod : ∀ i ∈ List.range P, decide (i % P = p) = decide (i = p) := fun i hi => by
    rw [Nat.mod_eq_of_lt (List.mem_range.1 hi)]
  rw [List.filter_congr hmod, List.filter_eq, List.count_range, if_pos hp, List.replicate_one]

/-- Two sweeps test pair p twice. -/
theorem filter_range_two_mul_mod_eq {P p : Nat} (hp : p < P) :
    (List.range (2 * P)).filter (fun i => decide (i % P = p)) = [p, p + P] := by
  rw [Nat.two_mul, List.range_add, List.filter_append, List.filter_map, filter_range_mod_eq hp]
  simp [Function.comp_def, filter_range_mod_eq hp, Nat.add_comm]

/-- For n = 2P each pair is tested twice (R153). -/
theorem pairExchanged_two_mul {P p : Nat} (hp : p < P) :
    pairExchanged s (2 * P) p = decide ((keyParityAt s p + keyParityAt s (p + P)) % 2 = 1) := by
  rw [pairExchanged, Nat.mul_div_cancel_left P Nat.two_pos, filter_range_two_mul_mod_eq hp]
  simp

/-- For n = 2P + 1 the last iteration tests pair 0 a third time (R153). -/
theorem pairExchanged_two_mul_add_one {P p : Nat} (hp : p < P) :
    pairExchanged s (2 * P + 1) p =
      if p = 0 then decide ((keyParityAt s 0 + keyParityAt s P + keyParityAt s (2 * P)) % 2 = 1)
      else decide ((keyParityAt s p + keyParityAt s (p + P)) % 2 = 1) := by
  have hhalf : (2 * P + 1) / 2 = P := by omega
  rw [pairExchanged, hhalf, List.range_succ, List.filter_append, filter_range_two_mul_mod_eq hp]
  split_ifs with hp0
  · subst hp0
    simp [Nat.add_assoc]
  · simp [Ne.symm hp0]

/-- Settles O37: the walk completes over filled operands and composes its iterations' exchanges; the iterations
that test a pair are listed by sweeps. -/
theorem swapComputesTheClosedForm : Obligations.SwapComputesTheClosedForm := by
  intro s hlen hpos hcap hdata hkey
  obtain ⟨t, ht⟩ := swap_total hlen hpos hcap hdata hkey
  exact ⟨⟨t.dbuf, exec_swap_of_swap ht, swap_read ht⟩,
    fun _ _ hp => ⟨pairExchanged_two_mul hp, pairExchanged_two_mul_add_one hp⟩⟩

end Sys2Proof.Machine
end

section
/-! The block pipelines (43_pipelines.md): BDEC runs the inverse stages of BENC in reverse order (R170, R172), so that
the two in a row give back the padded plaintext, which DEPAD strips (R177, R178). -/

namespace Sys2Proof.Machine

variable {s : State} {m : Memory}

/-- The bytes that KXOR and SWAP read are filled and within the capacities (R82, R224). -/
structure OperandsReady (s : State) : Prop where
  len_le : s.len.toNat ≤ s.bufcap.toNat
  keylen_pos : 1 ≤ s.keylen.toNat
  keylen_le : s.keylen.toNat ≤ s.keycap.toNat
  data : dataFilled s s.len.toNat
  key : keyFilled s s.len.toNat

theorem OperandsReady.after_setDbuf (h : OperandsReady s) (hm : ∀ a < s.len.toNat, (m.read a).isSome = true) :
    OperandsReady (s.setDbuf m) :=
  { h with data := hm }

/-- A completion leaves the operands of the next command ready. -/
theorem OperandsReady.after_finish (h : OperandsReady s) : OperandsReady (finish s) := { h with }

/-- A buffer and a non-empty key within the capacities are ready operands. -/
theorem OperandsReady.of_holds {p k : List Byte} (hbuf : HoldsBuffer s p) (hkey : HoldsKey s k) (hk : k ≠ [])
    (hp : p.length ≤ s.bufcap.toNat) (hkc : k.length ≤ s.keycap.toNat) : OperandsReady s := by
  obtain ⟨hlen, hread⟩ := hbuf
  obtain ⟨hkeylen, hkread⟩ := hkey
  have hpos : 1 ≤ k.length := List.length_pos_iff.2 hk
  rw [← hkeylen] at hpos hkc hkread
  refine ⟨hlen.trans_le hp, hpos, hkc, fun i hi => ?_, fun i _ => ?_⟩
  · rw [hlen] at hi
    simp [hread i hi, hi]
  · have hmod : i % s.keylen.toNat < s.keylen.toNat := Nat.mod_lt i hpos
    rw [hkread _ hmod]
    simp [← hkeylen, hmod]

/-- `KeyXor()` over ready operands answers R140's buffer, ready for the next stage. -/
theorem OperandsReady.keyXor_mixes (h : OperandsReady s) :
    ∃ m, keyXor s = .ok (s.setDbuf m) ∧ OperandsReady (s.setDbuf m) ∧
      ∀ a, m.read a = if a < s.len.toNat then xorAt s a else s.dbuf.read a := by
  obtain ⟨m, hm, hr⟩ := keyXorFrom_mixes (i := 0) (k := s.len.toNat) (by simpa using h.len_le)
    (Nat.ne_of_gt h.keylen_pos) h.keylen_le (fun a _ ha => h.data a (by omega)) (fun a _ ha => h.key a (by omega))
  simp only [Nat.zero_le, true_and, Nat.zero_add] at hr
  refine ⟨m, hm, h.after_setDbuf fun a ha => ?_, hr⟩
  rw [hr, if_pos ha, isSome_xorAt, h.data a ha, h.key a ha, Bool.and_self]

/-- The closed form takes the bytes of the buffer from the buffer. -/
theorem swapSource_lt {n a : Nat} (h : a < n) : swapSource s n a < n := by
  unfold swapSource
  split_ifs <;> omega

/-- The closed form is its own inverse (R154). -/
theorem swapSource_swapSource (s : State) (n a : Nat) : swapSource s n (swapSource s n a) = a := by
  rw [swapSource_eq_mirrorWhere, mirrorWhere_mirrorWhere]
  simp [mirrorWhere]

/-- `Swap()` over ready operands answers R153's buffer, ready for the next stage. -/
theorem OperandsReady.swap_permutes (h : OperandsReady s) :
    ∃ m, swap s = .ok (s.setDbuf m) ∧ OperandsReady (s.setDbuf m) ∧
      ∀ a, m.read a = s.dbuf.read (swapSource s s.len.toNat a) := by
  obtain ⟨t, ht⟩ := swap_total h.len_le h.keylen_pos h.keylen_le h.data h.key
  have hr := swap_read ht
  refine ⟨t.dbuf, ht.trans (congrArg _ (swap_writes ht).1), h.after_setDbuf fun a ha => ?_, hr⟩
  rw [hr]
  exact h.data _ (swapSource_lt ha)

/-- BDEC's first two stages undo BENC's last two: SWAP undoes SWAP (R154), then KXOR undoes KXOR (R143). -/
theorem OperandsReady.swap_keyXor_undoes_keyXor_swap (h : OperandsReady s) :
    ∃ c p, keyXor s >>= swap = .ok (s.setDbuf c) ∧
      swap (finish (s.setDbuf c)) >>= keyXor = .ok ((finish s).setDbuf p) ∧ ∀ a, p.read a = s.dbuf.read a := by
  obtain ⟨x, hx, hxready, hxr⟩ := h.keyXor_mixes
  obtain ⟨c, hc, hcready, hcr⟩ := hxready.swap_permutes
  obtain ⟨y, hy, hyready, hyr⟩ := hcready.after_finish.swap_permutes
  obtain ⟨p, hp, -, hpr⟩ := hyready.keyXor_mixes
  have hyx : ∀ a, y.read a = x.read a := fun a => by
    calc y.read a = c.read (swapSource s s.len.toNat a) := hyr a
      _ = x.read (swapSource s s.len.toNat (swapSource s s.len.toNat a)) := hcr _
      _ = x.read a := by rw [swapSource_swapSource]
  refine ⟨c, p, bind_eq_ok.2 ⟨_, hx, hc⟩, bind_eq_ok.2 ⟨_, hy, hp⟩, fun a => (hpr a).trans ?_⟩
  split_ifs with ha
  · exact xorAt_of_read_eq_xorAt rfl rfl (h.key a ha) ((hyx a).trans ((hxr a).trans (if_pos ha)))
  · exact (hyx a).trans ((hxr a).trans (if_neg ha))

/-- A legal BUF_MAX is a whole number of blocks (R9). -/
theorem bufcap_mod_of_capsLegal (h : capsLegal s = true) : s.bufcap.toNat % 16 = 0 := by
  simp only [capsLegal, Bool.and_eq_true, decide_eq_true_eq] at h
  obtain ⟨⟨⟨⟨hmod, -⟩, -⟩, -⟩, -⟩ := h
  exact hmod

/-- `Pad()` answers a state that holds the source's padding of the buffer. -/
theorem pad_of_holdsBuffer {p : List Byte} (h : HoldsBuffer s p) (hcap : s.bufcap.toNat % 16 = 0)
    (hfit : p.length ≤ s.bufcap.toNat) :
    ∃ m n, pad s = .ok ((s.setDbuf m).setLen n) ∧ HoldsBuffer ((s.setDbuf m).setLen n) (Source.pad p) := by
  have hceil : ceil16 s.len.toNat ≤ s.bufcap.toNat := ceil16_le (h.1.trans_le hfit) hcap
  obtain ⟨m, hm, hr⟩ := pad_appends hceil
  exact ⟨m, _, hm, holdsBuffer_sourcePad h (Nat.mod_eq_of_lt (hceil.trans_lt s.bufcap.isLt)) hr⟩

/-- The source's padding lengthens a trailing run of pad bytes (R125). -/
theorem sourcePad_append_replicate (q : List Byte) (r : Nat) :
    ∃ r', Source.pad (q ++ List.replicate r padByte) = q ++ List.replicate r' padByte :=
  ⟨_, by rw [Source.pad, List.append_assoc, ← padByte, List.replicate_append_replicate]⟩

/-- With LEN cut back to the length of a first part, the buffer holds that part. -/
theorem HoldsBuffer.setLen_of_append {q p : List Byte} (h : HoldsBuffer s (q ++ p)) :
    HoldsBuffer (s.setLen (BitVec.ofNat 32 q.length)) q := by
  obtain ⟨hlen, hread⟩ := h
  rw [List.length_append] at hlen hread
  refine ⟨Nat.mod_eq_of_lt (by have := s.len.isLt; omega), fun i hi => ?_⟩
  rw [State.setLen_dbuf, hread i (by omega), List.getElem?_append_left hi]

/-- BENC's last two stages and a whole BDEC leave of a buffer its first part q, where q does not end in a pad byte. -/
theorem blockDecrypt_of_keyXor_swap {q : List Byte} {r : Nat} (h : OperandsReady s)
    (hbuf : HoldsBuffer s (q ++ List.replicate r padByte)) (hlast : q.getLast? ≠ some padByte) :
    ∃ c u, keyXor s >>= swap = .ok (s.setDbuf c) ∧ blockDecrypt (finish (s.setDbuf c)) = .ok u ∧ HoldsBuffer u q := by
  obtain ⟨c, p, henc, hdec, hp⟩ := h.swap_keyXor_undoes_keyXor_swap
  have hplain : HoldsBuffer ((finish s).setDbuf p) (q ++ List.replicate r padByte) :=
    ⟨hbuf.1, fun i hi => (hp i).trans (hbuf.2 i hi)⟩
  obtain ⟨x, hswap, hxor⟩ := bind_eq_ok.1 hdec
  have hdepad := depad_of_holdsBuffer hplain hlast h.len_le
  exact ⟨c, _, henc, bind_eq_ok.2 ⟨x, hswap, bind_eq_ok.2 ⟨_, hxor, hdepad⟩⟩, hplain.setLen_of_append⟩

/-- Settles O43: BDEC's SWAP and KXOR give back the padded plaintext, and DEPAD strips the padding together with the
plaintext's own trailing run. -/
theorem blockRoundTripLosesOnlyTheTrailingRun : Obligations.BlockRoundTripLosesOnlyTheTrailingRun := by
  intro s q k r hcaps hbuf hlast hkey hk hfit hkc
  have hcap := bufcap_mod_of_capsLegal hcaps
  have hplen : (q ++ List.replicate r (0x81 : Byte)).length = q.length + r := by simp
  obtain ⟨m, n, hpad, hpadded⟩ := pad_of_holdsBuffer hbuf hcap (hplen.trans_le hfit)
  have hn : n.toNat = ceil16 (q.length + r) := by rw [← hplen, ← length_sourcePad]; exact hpadded.1
  have hready : OperandsReady ((s.setDbuf m).setLen n) := .of_holds hpadded hkey hk
    (by rw [length_sourcePad, hplen]; exact ceil16_le hfit hcap) hkc
  obtain ⟨r', hrun⟩ := sourcePad_append_replicate q r
  obtain ⟨c, u, hmix, hbdec, hu⟩ := blockDecrypt_of_keyXor_swap hready (hrun ▸ hpadded) hlast
  have hbenc : blockEncrypt s = .ok (((s.setDbuf m).setLen n).setDbuf c) := bind_eq_ok.2 ⟨_, hpad, hmix⟩
  exact ⟨_, finish u, congrArg complete hbenc, hn, congrArg complete hbdec, hu⟩

end Sys2Proof.Machine
end

section
/-! INVALID_SELECTOR by the fields of the word (60_exceptions.md R191): the five checks of the fields leave the eight
command words of the table (30_encoding.md R96), and no others. -/

namespace Sys2Proof.Machine

/-- The four fields are the whole word (R91). -/
theorem toWord_ofWord (w : Word) : (Fields.ofWord w).toWord = w := by
  simp only [Fields.toWord, Fields.ofWord]
  rw [BitVec.extractLsb'_append_extractLsb'_eq_extractLsb' (by rfl),
    BitVec.extractLsb'_append_extractLsb'_eq_extractLsb' (by rfl),
    BitVec.extractLsb'_append_extractLsb'_eq_extractLsb' (by rfl)]
  exact BitVec.extractLsb'_eq_self

/-- The checks of R191 on the numbers that the fields hold. -/
theorem wellFormed_iff {f : Fields} :
    f.wellFormed = true ↔
      f.rsvd.toNat = 0 ∧ (1 ≤ f.op.toNat ∧ f.op.toNat ≤ 5) ∧ f.fam.toNat ≤ 1 ∧ f.mode.toNat ≤ 1 ∧
        (f.op.toNat = 1 ∨ f.fam.toNat = 0 ∧ f.mode.toNat = 0) := by
  simp [Fields.wellFormed, Fields.rsvdZero, Fields.opAssigned, Fields.famRecognized, Fields.modeRecognized,
    Fields.stagePlain, ← BitVec.toNat_inj, and_assoc]

theorem wellFormed_fields (i : Instr) : i.fields.wellFormed = true := by
  cases i <;> decide

theorem ofWord_encode (i : Instr) : Fields.ofWord (encode i) = i.fields := by
  cases i <;> decide

/-- Fields that pass the checks are a row of R96's table: PIPE with its four selectors, or one of the four stages. -/
theorem exists_fields_of_wellFormed {f : Fields} (h : f.wellFormed = true) : ∃ i : Instr, f = i.fields := by
  obtain ⟨fam, mode, op, rsvd⟩ := f
  obtain ⟨hrsvd, hop, hfam, hmode, hstage⟩ := wellFormed_iff.1 h
  obtain rfl : rsvd = 0 := BitVec.eq_of_toNat_eq hrsvd
  have bit {b : BitVec 2} (hb : b.toNat ≤ 1) : b = 0 ∨ b = 1 := by bv_omega
  by_cases hpipe : op = 1
  · subst hpipe
    rcases bit hfam with rfl | rfl <;> rcases bit hmode with rfl | rfl
    · exact ⟨.benc, rfl⟩
    · exact ⟨.bdec, rfl⟩
    · exact ⟨.senc, rfl⟩
    · exact ⟨.sdec, rfl⟩
  · obtain ⟨hfam0, hmode0⟩ := hstage.resolve_left fun h1 => hpipe (BitVec.eq_of_toNat_eq h1)
    obtain rfl : fam = 0 := BitVec.eq_of_toNat_eq hfam0
    obtain rfl : mode = 0 := BitVec.eq_of_toNat_eq hmode0
    have hstages : op = 2 ∨ op = 3 ∨ op = 4 ∨ op = 5 := by bv_omega
    rcases hstages with rfl | rfl | rfl | rfl
    · exact ⟨.pad, rfl⟩
    · exact ⟨.depad, rfl⟩
    · exact ⟨.kxor, rfl⟩
    · exact ⟨.swap, rfl⟩

/-- A word is a command word exactly when its fields pass the checks. -/
theorem exists_eq_encode_iff_wellFormed {w : Word} : (∃ i, w = encode i) ↔ (Fields.ofWord w).wellFormed = true := by
  constructor
  · rintro ⟨i, rfl⟩
    rw [ofWord_encode]
    exact wellFormed_fields i
  · intro h
    obtain ⟨i, hi⟩ := exists_fields_of_wellFormed h
    exact ⟨i, by rw [← toWord_ofWord w, hi, encode]⟩

/-- The low four bits are FAM and MODE together. -/
theorem toNat_extractLsb'_selector (w : Word) :
    (w.extractLsb' 0 4).toNat = (Fields.ofWord w).fam.toNat + 4 * (Fields.ofWord w).mode.toNat := by
  simp only [Fields.ofWord, BitVec.extractLsb'_toNat, Nat.shiftRight_eq_div_pow]
  omega

/-- Settles O4: a word outside the table is one whose fields fail a check of R191. -/
theorem fieldRulesMatchTheTable : Obligations.FieldRulesMatchTheTable := by
  intro w s
  have htable : (∀ i, w ≠ encode i) ↔ ¬ (Fields.ofWord w).wellFormed = true :=
    not_exists.symm.trans (not_congr exists_eq_encode_iff_wellFormed)
  refine ⟨validate_eq_invalidSelector_iff, ?_⟩
  rw [htable, wellFormed_iff, toNat_extractLsb'_selector]
  simp only [Fields.ofWord]
  omega

end Sys2Proof.Machine
end

section
/-! What the block answers where a host access has no effect (60_exceptions.md): a rejected issue (R195), a write
dropped while BUSY = 1 (R199), and an access that gets a bus error (R200). -/

namespace Sys2Proof.Machine

variable {s : State}

/-- The status after a rejected issue with BUSY = 0. -/
theorem accepted_failed_of_not_busy {x : Status} (hb : x.busy = false) (e : ErrCode) :
    x.accepted.failed e = { busy := false, done := true, err := e, wrbusy := x.wrbusy } := by
  rw [← hb]
  rfl

/-- A write to CMD that fails validation with BUSY = 0 latches the word and reports the error (R195). -/
theorem issue_of_rejected {w : Word} (hb : s.status.busy = false) (hv : validate w s ≠ .none) :
    issue w s = (s.setCmd w).setStatus (s.status.accepted.failed (validate w s)) := by
  rcases issue_cases w s with ⟨hbusy, _⟩ | ⟨_, hnone, _⟩ | ⟨_, _, hi⟩
  · exact absurd hbusy (by simp [hb])
  · exact absurd hnone hv
  · exact hi

/-- Settles O9: the write reaches CMD, and the issue is rejected. -/
theorem rejectedIssueOnlyReports : Obligations.RejectedIssueOnlyReports := by
  intro s w rest hin hb hv
  have hissue : issue w (s.setInputs rest) =
      ((s.setInputs rest).setCmd w).setStatus (s.status.accepted.failed (validate w s)) := issue_of_rejected hb hv
  have hwrite := memWrite_csr (s.setInputs rest) .cmd w
  rw [csrWrite, hissue, accepted_failed_of_not_busy hb] at hwrite
  exact (step_of_write hin).trans (congrArg _ hwrite)

/-- A guarded write does nothing but set WRBUSY while BUSY = 1. -/
theorem unlessBusy_of_busy (hb : s.status.busy = true) (u : State) : unlessBusy s u = s.setStatus s.status.dropped :=
  if_pos hb

/-- A write to CMD, LEN or KEYLEN is dropped while BUSY = 1 (R199). -/
theorem csrWrite_of_busy (hb : s.status.busy = true) {c : Csr} (hc : c = .cmd ∨ c = .len ∨ c = .keylen) (v : Word) :
    csrWrite s v c = s.setStatus s.status.dropped := by
  rcases hc with rfl | rfl | rfl
  · exact if_pos hb
  · exact unlessBusy_of_busy hb _
  · exact unlessBusy_of_busy hb _

/-- The places where a write is dropped while BUSY = 1: CMD, LEN, KEYLEN and the two windows (R199). -/
def DroppedWhileBusy : Target → Prop
  | .csr c => c = .cmd ∨ c = .len ∨ c = .keylen
  | .key _ => True
  | .data _ => True
  | .nowhere => False

/-- A write to one of these places sets WRBUSY, and is answered OKAY, whatever the value. -/
theorem memWrite_of_busy (hb : s.status.busy = true) {addr : Word} {n : Width}
    (hd : DroppedWhileBusy (target s addr.toNat n.bytes)) (v : Word) :
    memWrite s addr n v = (s.setStatus s.status.dropped).setResponse (some .okay) := by
  unfold memWrite
  cases ht : target s addr.toNat n.bytes with
  | csr c =>
    rw [ht] at hd
    exact congrArg (State.setResponse · _) (csrWrite_of_busy hb hd v)
  | key j => exact congrArg (State.setResponse · _) (unlessBusy_of_busy hb _)
  | data i => exact congrArg (State.setResponse · _) (unlessBusy_of_busy hb _)
  | nowhere =>
    rw [ht] at hd
    exact hd.elim

/-- A register access at CMD, LEN or KEYLEN and an aligned access inside a window reach one of these places. -/
theorem droppedWhileBusy_target (hcaps : capsLegal s = true) {addr : Word} {n : Width}
    (h : (n = .four ∧ (addr = 0x000 ∨ addr = 0x008 ∨ addr = 0x00C)) ∨ KeyAccess s addr n ∨ DataAccess s addr n) :
    DroppedWhileBusy (target s addr.toNat n.bytes) := by
  rcases h with ⟨rfl, haddr⟩ | ⟨hlo, hhi, hal⟩ | ⟨hlo, hhi, hal⟩
  · obtain ⟨c, hc, rfl⟩ : ∃ c, (c = .cmd ∨ c = .len ∨ c = .keylen) ∧ addr = csrOffset c := by
      rcases haddr with rfl | rfl | rfl
      · exact ⟨.cmd, .inl rfl, rfl⟩
      · exact ⟨.len, .inr (.inl rfl), rfl⟩
      · exact ⟨.keylen, .inr (.inr rfl), rfl⟩
    rw [target_csrOffset]
    exact hc
  · rw [target_eq_key.2 ⟨hlo, hhi, hal, rfl⟩]
    trivial
  · have hkeycap : s.keycap.toNat ≤ 4096 := by
      simp only [capsLegal, Bool.and_eq_true, decide_eq_true_eq] at hcaps
      exact hcaps.2
    rw [target_eq_data hkeycap hlo hhi hal]
    trivial

/-- Settles O10: each of these writes reaches a place where it is dropped. -/
theorem hostWritesAreDroppedWhileBusy : Obligations.HostWritesAreDroppedWhileBusy := by
  intro s addr n v rest hin hcaps hb h
  have hd : DroppedWhileBusy (target (s.setInputs rest) addr.toNat n.bytes) := droppedWhileBusy_target hcaps h
  exact (step_of_write hin).trans (congrArg _ (memWrite_of_busy (s := s.setInputs rest) hb hd v))

theorem Width.eq_four_of_bytes {n : Width} (h : n.bytes = 4) : n = .four := by
  cases n <;> simp [Width.bytes] at h ⊢

/-- An access that reaches a register is a legal register access (R67). -/
theorem csrAccess_of_target {addr : Word} {n : Width} {c : Csr} (h : target s addr.toNat n.bytes = .csr c) :
    CsrAccess addr n := by
  obtain ⟨hn, ha⟩ := target_eq_csr.1 h
  refine ⟨Width.eq_four_of_bytes hn, ?_⟩
  rw [ha]
  cases c <;> decide

/-- An access of none of the three legal kinds goes nowhere (R200). -/
theorem target_of_illegal {addr : Word} {n : Width} (hc : ¬ CsrAccess addr n) (hk : ¬ KeyAccess s addr n)
    (hd : ¬ DataAccess s addr n) : target s addr.toNat n.bytes = .nowhere := by
  apply target_eq_nowhere
  · exact fun c h => hc (csrAccess_of_target h)
  · intro j h
    obtain ⟨hlo, hhi, hal, _⟩ := target_eq_key.1 h
    exact hk ⟨hlo, hhi, hal⟩
  · intro i h
    obtain ⟨hlo, hhi, hal, _⟩ := target_data h
    exact hd ⟨hlo, hhi, hal⟩

/-- Settles O25: the access goes nowhere, where a read and a write answer the bus error alone. -/
theorem illegalAccessesGetABusError : Obligations.IllegalAccessesGetABusError := by
  intro s addr n rest hc hk hd
  have ht : target (s.setInputs rest) addr.toNat n.bytes = .nowhere := target_of_illegal hc hk hd
  constructor
  · intro hin
    rw [step_of_read hin, memRead, ht]
    rfl
  · intro v hin
    rw [step_of_write hin, memWrite, ht]
    rfl

end Sys2Proof.Machine
end

section
/-! A completion step (10_state.md R42): every command runs its pseudocode to the end, which changes LEN and DBUF
alone, and of DBUF only bytes below the larger of the old and the new LEN. -/

namespace Sys2Proof.Machine

variable {s t u : State}

/-- The pseudocode of each command (30_encoding.md R96). -/
def pseudocode : Instr → State → Except Fault State
  | .benc => blockEncrypt
  | .bdec => blockDecrypt
  | .senc => streamXor
  | .sdec => streamXor
  | .pad => pad
  | .depad => depad
  | .kxor => keyXor
  | .swap => swap

/-- A command is its pseudocode, completed. -/
theorem exec_eq_complete (i : Instr) (s : State) : exec i s = complete (pseudocode i s) := by
  cases i <;> rfl

/-- A command goes on exactly where its pseudocode answers a state. -/
theorem exec_eq_next {i : Instr} : exec i s = .next t ↔ ∃ u, pseudocode i s = .ok u ∧ t = finish u := by
  rw [exec_eq_complete, complete_eq_next]
  rfl

/-- t differs from s in DBUF alone, and there only in bytes of the buffer. -/
def RewritesBuffer (s t : State) : Prop :=
  WritesBuffer s t ∧ ∀ a, s.len.toNat ≤ a → t.dbuf.read a = s.dbuf.read a

theorem WritesBuffer.len_eq (h : WritesBuffer s t) : t.len = s.len := by rw [h.1]; rfl
theorem WritesBuffer.keylen_eq (h : WritesBuffer s t) : t.keylen = s.keylen := by rw [h.1]; rfl
theorem WritesBuffer.bufcap_eq (h : WritesBuffer s t) : t.bufcap = s.bufcap := by rw [h.1]; rfl
theorem WritesBuffer.keycap_eq (h : WritesBuffer s t) : t.keycap = s.keycap := by rw [h.1]; rfl
theorem WritesBuffer.keymem_eq (h : WritesBuffer s t) : t.keymem = s.keymem := by rw [h.1]; rfl

theorem RewritesBuffer.trans (h : RewritesBuffer s t) (h' : RewritesBuffer t u) : RewritesBuffer s u := by
  obtain ⟨hw, hr⟩ := h
  obtain ⟨hw', hr'⟩ := h'
  refine ⟨hw.trans hw', fun a ha => (hr' a ?_).trans (hr a ha)⟩
  rwa [hw.len_eq]

/-- The key-XOR loop leaves the bytes above its last position. -/
theorem keyXorFrom_read_above {k i a : Nat} (h : keyXorFrom k i s = .ok t) (ha : i + k ≤ a) :
    t.dbuf.read a = s.dbuf.read a := by
  induction k generalizing i s with
  | zero => cases h; rfl
  | succ k ih =>
    obtain ⟨b, -, h⟩ := bind_eq_ok.1 h
    obtain ⟨key, -, h⟩ := bind_eq_ok.1 h
    obtain ⟨u, hu, h⟩ := bind_eq_ok.1 h
    obtain ⟨-, rfl⟩ := writeData_eq_ok.1 hu
    rw [ih h (by omega), State.setDbuf_dbuf, Memory.read_write, if_neg (by omega)]

theorem keyXor_rewrites (h : keyXor s = .ok t) : RewritesBuffer s t :=
  ⟨keyXor_writes h, fun _ ha => keyXorFrom_read_above h (by omega)⟩

theorem swapSource_of_le {n a : Nat} (h : n ≤ a) : swapSource s n a = a :=
  if_neg fun hlt => absurd hlt.1 (Nat.not_lt.2 h)

theorem swap_rewrites (h : swap s = .ok t) : RewritesBuffer s t :=
  ⟨swap_writes h, fun a ha => by rw [swap_read h, swapSource_of_le ha]⟩

/-- The pad loop writes no byte outside BUF_MAX, and none above its last position. -/
theorem padFill_eq_ok {k j : Nat} (h : padFill k j s = .ok t) :
    (k = 0 ∨ j + k ≤ s.bufcap.toNat) ∧ ∀ a, j + k ≤ a → t.dbuf.read a = s.dbuf.read a := by
  induction k generalizing j s with
  | zero => cases h; exact ⟨.inl rfl, fun _ _ => rfl⟩
  | succ k ih =>
    obtain ⟨u, hu, h⟩ := bind_eq_ok.1 h
    obtain ⟨hj, rfl⟩ := writeData_eq_ok.1 hu
    obtain ⟨hbound, hread⟩ := ih h
    rw [State.setDbuf_bufcap] at hbound
    refine ⟨.inr (by omega), fun a ha => ?_⟩
    rw [hread a (by omega), State.setDbuf_dbuf, Memory.read_write, if_neg (by omega)]

/-- `Pad()` sets LEN to ceil16(LEN), which does not wrap where `Pad()` answers, and leaves the bytes above. -/
theorem pad_frame (h : pad s = .ok t) :
    WritesBuffer s (t.setLen s.len) ∧ t.len.toNat = ceil16 s.len.toNat ∧
      ∀ a, ceil16 s.len.toNat ≤ a → t.dbuf.read a = s.dbuf.read a := by
  obtain ⟨u, hu, h⟩ := bind_eq_ok.1 h
  cases h
  obtain ⟨hbound, hread⟩ := padFill_eq_ok hu
  have hw := padFill_writes hu
  have hadd := Nat.add_sub_cancel' (ceil16_bounds s.len.toNat).1
  rw [hadd] at hbound hread
  refine ⟨?_, Nat.mod_eq_of_lt ?_, hread⟩
  · rwa [State.setLen_twice, ← hw.len_eq, State.setLen_self]
  · have hlen := s.len.isLt
    have hcap := s.bufcap.isLt
    omega

/-- What the pseudocode of a command may do to the block. -/
structure DatapathFrame (s t : State) : Prop where
  /-- LEN and DBUF are all that changes, and DBUF by writes below BUF_MAX. -/
  writes : WritesBuffer s (t.setLen s.len)
  /-- No byte at or above both lengths changes. -/
  above : ∀ a, s.len.toNat ≤ a → t.len.toNat ≤ a → t.dbuf.read a = s.dbuf.read a

theorem RewritesBuffer.datapathFrame (h : RewritesBuffer s t) : DatapathFrame s t := by
  obtain ⟨hw, hr⟩ := h
  refine ⟨?_, fun a ha _ => hr a ha⟩
  rwa [← hw.len_eq, State.setLen_self]

/-- A command that changes the length and then rewrites the buffer. -/
theorem DatapathFrame.then_rewrites (h : DatapathFrame s t) (h' : RewritesBuffer t u) : DatapathFrame s u := by
  obtain ⟨hw, hr⟩ := h'
  have hlen : u.len = t.len := hw.len_eq
  have hset : WritesBuffer (t.setLen s.len) (u.setLen s.len) := ⟨by rw [hw.1]; rfl, hw.2⟩
  refine ⟨h.writes.trans hset, fun a ha hau => ?_⟩
  rw [hlen] at hau
  rw [hr a hau, h.above a ha hau]

/-- Only LEN changes. -/
theorem datapathFrame_setLen (s : State) (n : Word) : DatapathFrame s (s.setLen n) :=
  ⟨.refl _, fun _ _ _ => rfl⟩

/-- A command that rewrites the buffer and then sets LEN. -/
theorem RewritesBuffer.then_setLen (h : RewritesBuffer s t) (n : Word) : DatapathFrame s (t.setLen n) :=
  ⟨h.datapathFrame.writes, fun a ha _ => h.2 a ha⟩

theorem pad_datapathFrame (h : pad s = .ok t) : DatapathFrame s t := by
  obtain ⟨hw, hlen, hread⟩ := pad_frame h
  exact ⟨hw, fun a _ ha => hread a (hlen ▸ ha)⟩

/-- Every command keeps to the frame. -/
theorem pseudocode_frame {i : Instr} (h : pseudocode i s = .ok t) : DatapathFrame s t := by
  cases i with
  | benc =>
    obtain ⟨p, hp, h⟩ := bind_eq_ok.1 h
    obtain ⟨x, hx, hs⟩ := bind_eq_ok.1 h
    exact (pad_datapathFrame hp).then_rewrites ((keyXor_rewrites hx).trans (swap_rewrites hs))
  | bdec =>
    obtain ⟨w, hw, h⟩ := bind_eq_ok.1 h
    obtain ⟨x, hx, h⟩ := bind_eq_ok.1 h
    obtain ⟨r, -, rfl⟩ := depad_eq_ok h
    exact ((swap_rewrites hw).trans (keyXor_rewrites hx)).then_setLen _
  | senc => exact (keyXor_rewrites h).datapathFrame
  | sdec => exact (keyXor_rewrites h).datapathFrame
  | pad => exact pad_datapathFrame h
  | depad =>
    obtain ⟨r, -, rfl⟩ := depad_eq_ok h
    exact datapathFrame_setLen s _
  | kxor => exact (keyXor_rewrites h).datapathFrame
  | swap => exact (swap_rewrites h).datapathFrame

/-- The commands that leave LEN. -/
theorem pseudocode_len {i : Instr} (hi : i = .kxor ∨ i = .swap ∨ i = .senc ∨ i = .sdec)
    (h : pseudocode i s = .ok t) : t.len = s.len := by
  obtain rfl | rfl | rfl | rfl := hi
  · exact (keyXor_writes h).len_eq
  · exact (swap_writes h).len_eq
  · exact (keyXor_writes h).len_eq
  · exact (keyXor_writes h).len_eq

/-- A state that differs in LEN and DBUF alone, field by field. -/
theorem DatapathFrame.eq (h : DatapathFrame s t) : t = (s.setDbuf t.dbuf).setLen t.len := by
  have hset := congrArg (State.setLen · t.len) h.writes.1
  simpa using hset

/-- Settles O46: the frame of the pseudocode, and DEPAD, which sets LEN alone. -/
theorem completionFrame : Obligations.CompletionFrame := by
  intro i s t h
  obtain ⟨u, hu, rfl⟩ := exec_eq_next.1 h
  have hframe := pseudocode_frame hu
  refine ⟨?_, hframe.above, fun hi => (pseudocode_len hi hu : u.len = s.len), ?_⟩
  · conv_lhs => rw [hframe.eq]
    rfl
  · rintro rfl
    obtain ⟨r, -, rfl⟩ := depad_eq_ok hu
    rfl

end Sys2Proof.Machine
end

section
/-! What one step can do to the block, said once (10_state.md R42, 20_memory.md R73, R74, 70_reset_and_hazards.md
R220), and what follows for each register and memory. -/

namespace Sys2Proof.Machine

variable {s t u : State}

/-- t is u with the event whose turn it was taken off; the answer and the count of drawn values may be others. -/
structure Served (u t : State) : Prop where
  cmd : t.cmd = u.cmd
  status : t.status = u.status
  len : t.len = u.len
  keylen : t.keylen = u.keylen
  bufcap : t.bufcap = u.bufcap
  keycap : t.keycap = u.keycap
  dbuf : t.dbuf = u.dbuf
  keymem : t.keymem = u.keymem
  inputs : t.inputs = u.inputs.tail

/-- The state that a step leaves, by what the step was. -/
inductive StepEffect (s t : State) : Prop where
  /-- An idle engine turn, a read, or a write without effect. -/
  | kept (h : Served s t)
  /-- The completion of the command in flight. -/
  | completed (n : Word) (m : Memory) (turn : EngineTurn s) (busy : s.status.busy = true)
      (writes : WritesBuffer s (s.setDbuf m)) (h : Served (((s.setDbuf m).setLen n).setStatus s.status.finished) t)
  /-- A write to CMD that passes validation. -/
  | started (w : Word) (busy : s.status.busy = false) (event : s.inputs.head? = some (.write 0 .four w))
      (valid : validate w s = .none) (h : Served ((s.setCmd w).setStatus s.status.accepted.started) t)
  /-- A write to CMD that fails validation. -/
  | rejected (w : Word) (busy : s.status.busy = false) (event : s.inputs.head? = some (.write 0 .four w))
      (h : Served ((s.setCmd w).setStatus (s.status.accepted.failed (validate w s))) t)
  /-- A write to STATUS. -/
  | statusWritten (v : Word) (event : s.inputs.head? = some (.write 4 .four v))
      (h : Served (s.setStatus (s.status.written v)) t)
  /-- A write that is dropped. -/
  | dropped (addr : Word) (n : Width) (v : Word) (busy : s.status.busy = true)
      (event : s.inputs.head? = some (.write addr n v)) (h : Served (s.setStatus s.status.dropped) t)
  /-- A write to LEN. -/
  | lenStored (v : Word) (busy : s.status.busy = false) (h : Served (s.setLen v) t)
  /-- A write to KEYLEN. -/
  | keylenStored (v : Word) (busy : s.status.busy = false) (event : s.inputs.head? = some (.write 12 .four v))
      (h : Served (s.setKeylen v) t)
  /-- A write to the key window. -/
  | keyStored (addr : Word) (n : Width) (v : Word) (j : Nat) (busy : s.status.busy = false)
      (event : s.inputs.head? = some (.write addr n v)) (reaches : target s addr.toNat n.bytes = .key j)
      (h : Served (s.setKeymem (scatter n.bytes j v s.keymem)) t)
  /-- A write to the data window. -/
  | dataStored (addr : Word) (n : Width) (v : Word) (i : Nat) (busy : s.status.busy = false)
      (reaches : target s addr.toNat n.bytes = .data i) (h : Served (s.setDbuf (scatter n.bytes i v s.dbuf)) t)
  /-- Reset. -/
  | reset (event : s.inputs.head? = some .reset) (h : Served (applyReset s) t)

theorem served_setInputs_tail (s : State) : Served s (s.setInputs s.inputs.tail) := by
  constructor <;> rfl

/-- The record of an access does not matter. -/
theorem Served.setResponse (h : Served u t) (r : Option Response) : Served u (t.setResponse r) := by
  cases h
  constructor <;> assumption

theorem Served.setDraws (h : Served u t) (k : Nat) : Served u (t.setDraws k) := by
  cases h
  constructor <;> assumption

/-- A completion, on the state with the event taken off. -/
theorem stepEffect_of_exec {i : Instr} (turn : EngineTurn s) (busy : s.status.busy = true)
    (h : exec i (s.setInputs s.inputs.tail) = .next t) : StepEffect s t := by
  obtain ⟨u, hu, rfl⟩ := exec_eq_next.1 h
  have hframe := pseudocode_frame hu
  refine .completed u.len u.dbuf turn busy ⟨rfl, hframe.writes.2⟩ ?_
  rw [hframe.eq]
  exact served_setInputs_tail (((s.setDbuf u.dbuf).setLen u.len).setStatus s.status.finished)

/-- A read. -/
theorem stepEffect_of_memRead {addr : Word} {n : Width} (h : memRead (s.setInputs s.inputs.tail) addr n = .next t) :
    StepEffect s t := by
  obtain ⟨ht, -⟩ := memRead_eq_next h
  rw [ht]
  exact .kept (((served_setInputs_tail s).setResponse _).setDraws _)

/-- A write. -/
theorem stepEffect_of_memWrite {addr : Word} {n : Width} {v : Word} (event : s.inputs.head? = some (.write addr n v)) :
    StepEffect s (memWrite (s.setInputs s.inputs.tail) addr n v) := by
  obtain ⟨u, r, hu, hcases⟩ := memWrite_cases (s.setInputs s.inputs.tail) addr n v
  rw [hu]
  have served (x : State) : Served x ((x.setInputs x.inputs.tail).setResponse r) :=
    (served_setInputs_tail x).setResponse r
  obtain rfl | ⟨rfl, rfl, rfl⟩ | ⟨rfl, rfl, rfl⟩ | ⟨busy, rfl⟩ | ⟨busy, rfl, rfl, rfl⟩ | ⟨busy, rfl, rfl, rfl⟩ |
    ⟨j, busy, reaches, rfl⟩ | ⟨i, busy, reaches, rfl⟩ := hcases
  · exact .kept (served s)
  · obtain ⟨busy, hi⟩ | ⟨busy, valid, hi⟩ | ⟨busy, -, hi⟩ := issue_cases v (s.setInputs s.inputs.tail)
    · exact hi ▸ .dropped _ _ v busy event (served (s.setStatus s.status.dropped))
    · exact hi ▸ .started v busy event valid (served ((s.setCmd v).setStatus s.status.accepted.started))
    · exact hi ▸ .rejected v busy event (served ((s.setCmd v).setStatus (s.status.accepted.failed (validate v s))))
  · exact .statusWritten v event (served (s.setStatus (s.status.written v)))
  · exact .dropped addr n v busy event (served (s.setStatus s.status.dropped))
  · exact .lenStored v busy (served (s.setLen v))
  · exact .keylenStored v busy event (served (s.setKeylen v))
  · exact .keyStored addr n v j busy event reaches (served (s.setKeymem (scatter n.bytes j v s.keymem)))
  · exact .dataStored addr n v i busy reaches (served (s.setDbuf (scatter n.bytes i v s.dbuf)))

theorem engineTurn_iff : EngineTurn s ↔ s.inputs = [] ∨ ∃ rest, s.inputs = .engine :: rest := by
  rw [EngineTurn, List.head?_eq_some_iff]

/-- Every step that goes on is one of these. -/
theorem stepEffect_of_step (h : step s = .next t) : StepEffect s t := by
  rcases step_cases h with ⟨-, -, rfl⟩ | ⟨i, turn, busy, -, hx⟩ | ⟨addr, n, rest, hin, hr⟩ |
    ⟨addr, n, v, rest, hin, rfl⟩ | ⟨rest, hin, rfl⟩
  · exact .kept (served_setInputs_tail s)
  · exact stepEffect_of_exec (engineTurn_iff.2 turn) busy hx
  · obtain rfl : s.inputs.tail = rest := congrArg List.tail hin
    exact stepEffect_of_memRead hr
  · obtain rfl : s.inputs.tail = rest := congrArg List.tail hin
    exact stepEffect_of_memWrite (congrArg List.head? hin)
  · obtain rfl : s.inputs.tail = rest := congrArg List.tail hin
    exact .reset (congrArg List.head? hin) (served_setInputs_tail (applyReset s))

/-- Settles O12: an issue and a reset are the only effects on CMD. -/
theorem cmdChangesOnlyByAnAcceptedWrite : Obligations.CmdChangesOnlyByAnAcceptedWrite := by
  intro s t hstep hne
  cases stepEffect_of_step hstep with
  | started w busy event _ h => exact .inl ⟨busy, h.cmd ▸ event⟩
  | rejected w busy event h => exact .inl ⟨busy, h.cmd ▸ event⟩
  | reset event h => exact .inr ⟨event, h.cmd⟩
  | _ => rename_i h; exact absurd h.cmd hne

/-- Settles O13: a completion sets DONE and keeps ERR, a STATUS write and a drop touch WRBUSY alone. -/
theorem errorReportLastsUntilTheNextIssue : Obligations.ErrorReportLastsUntilTheNextIssue := by
  intro s t hstep hchange
  cases stepEffect_of_step hstep with
  | started w busy event _ _ => exact .inl ⟨busy, w, event⟩
  | rejected w busy event _ => exact .inl ⟨busy, w, event⟩
  | reset event _ => exact .inr event
  | _ =>
    rename_i h
    rw [h.status] at hchange
    simp at hchange

/-- Settles O14: of the effects, `started` alone sets BUSY, `completed` and `reset` alone clear it. -/
theorem busySpansIssueToCompletion : Obligations.BusySpansIssueToCompletion := by
  intro s t hstep
  constructor
  · intro hclear hset
    cases stepEffect_of_step hstep with
    | started w _ event valid h => exact ⟨w, event, valid, h.cmd⟩
    | _ =>
      rename_i h
      rw [h.status] at hset
      simp [hclear, Status.reset] at hset
  · intro hset hclear
    cases stepEffect_of_step hstep with
    | completed n m turn _ _ h => exact .inl ⟨turn, by rw [h.status]; rfl⟩
    | reset event _ => exact .inr event
    | _ =>
      rename_i h
      rw [h.status] at hclear
      simp [hset] at hclear

/-- Settles O15: of the effects, `dropped` alone sets WRBUSY, `statusWritten` and `reset` alone clear it. -/
theorem wrbusyIsSticky : Obligations.WrbusyIsSticky := by
  intro s t hstep
  constructor
  · intro hset hclear
    cases stepEffect_of_step hstep with
    | statusWritten v event h =>
      rw [h.status, State.setStatus_status, Status.written_wrbusy, hset] at hclear
      exact .inl ⟨v, event, by simpa using hclear⟩
    | reset event _ => exact .inr event
    | _ =>
      rename_i h
      rw [h.status] at hclear
      simp [hset] at hclear
  · intro hclear hset
    cases stepEffect_of_step hstep with
    | dropped addr n v busy event _ => exact ⟨busy, addr, n, v, event⟩
    | _ =>
      rename_i h
      rw [h.status] at hset
      simp [hclear, Status.reset] at hset

/-- With a status that differs in WRBUSY alone, a served event has changed nothing else of the block. -/
theorem Served.eq_of_wrbusy (h : Served (s.setStatus { s.status with wrbusy := b }) t) :
    t = { s with status := { s.status with wrbusy := t.status.wrbusy }, inputs := s.inputs.tail,
                 response := t.response, draws := t.draws } :=
  State.ext_fields h.cmd (by rw [h.status]; rfl) h.len h.keylen h.bufcap h.keycap h.dbuf h.keymem h.inputs rfl rfl

/-- Settles O16: with BUSY = 1 a host access has no effect, writes STATUS, or is dropped. -/
theorem busyProtectsTheOperands : Obligations.BusyProtectsTheOperands := by
  intro s t hbusy hstep hhost
  cases stepEffect_of_step hstep with
  | kept h => exact h.eq_of_wrbusy (b := s.status.wrbusy)
  | statusWritten v _ h => exact h.eq_of_wrbusy
  | dropped _ _ _ _ _ h => exact h.eq_of_wrbusy
  | completed _ _ turn _ _ _ =>
    rcases turn with hnil | hengine
    · simp [hnil] at hhost
    · simp [hengine] at hhost
  | reset event _ => simp [event] at hhost
  | _ => exact Bool.noConfusion (hbusy.symm.trans ‹s.status.busy = false›)

/-- Settles O27: of the effects, `keyStored`, `keylenStored` and `reset` alone reach the key. -/
theorem keyChangesOnlyByHostWriteOrReset : Obligations.KeyChangesOnlyByHostWriteOrReset := by
  intro s t hstep
  constructor
  · intro hne
    cases stepEffect_of_step hstep with
    | keyStored addr n v j busy event reaches _ =>
      obtain ⟨hlo, hhi, hal, -⟩ := target_eq_key.1 reaches
      exact .inl ⟨busy, addr, n, v, event, hlo, hhi, hal⟩
    | reset event _ => exact .inr event
    | _ => rename_i h; exact absurd h.keymem hne
  · intro hne
    cases stepEffect_of_step hstep with
    | keylenStored v busy event h => exact .inl ⟨busy, h.keylen ▸ event⟩
    | reset event _ => exact .inr event
    | _ => rename_i h; exact absurd h.keylen hne

/-- Settles O28: no effect reaches the capacities. -/
theorem capacitiesNeverChange : Obligations.CapacitiesNeverChange := by
  intro s t hstep
  cases stepEffect_of_step hstep with
  | _ => rename_i h; exact ⟨h.bufcap, h.keycap⟩

end Sys2Proof.Machine
end

section
/-! The invariant (10_state.md R28, R29, R39, R41, 00_scope.md R9, R10): it holds after reset, and each of its parts
survives every effect that a step can have. -/

namespace Sys2Proof.Machine

variable {s t : State}

theorem capsLegal_iff :
    capsLegal s = true ↔ s.bufcap.toNat % 16 = 0 ∧ 16 ≤ s.bufcap.toNat ∧ s.bufcap.toNat ≤ 0xFFFF0000 ∧
      1 ≤ s.keycap.toNat ∧ s.keycap.toNat ≤ 4096 := by
  simp [capsLegal, and_assoc]

/-- A memory in canonical form with no byte at or above the capacity. -/
def Memory.legal (cap : Nat) (m : Memory) : Prop := m.wf = true ∧ m.within cap = true

theorem memoriesLegal_iff :
    memoriesLegal s = true ↔ s.dbuf.legal s.bufcap.toNat ∧ s.keymem.legal s.keycap.toNat := by
  simp [memoriesLegal, Memory.legal, and_assoc]

theorem flightLegal_iff :
    flightLegal s = true ↔
      (s.status.busy = true → validate s.cmd s = .none ∧ s.status.done = false ∧ s.status.err = .none) := by
  cases hb : s.status.busy <;> simp [flightLegal, hb, and_assoc]

theorem reportLegal_iff : reportLegal s = true ↔ s.status.err = .none ∨ s.status.done = true := by
  simp [reportLegal]

theorem Memory.legal_nil (cap : Nat) : Memory.legal cap [] := ⟨rfl, rfl⟩

theorem Memory.legal_write {m : Memory} {cap i : Nat} (b : Byte) (hi : i < cap) (h : m.legal cap) :
    (m.write i b).legal cap :=
  ⟨Memory.wf_write h.1, Memory.within_write h.2 hi⟩

theorem Memory.legal_scatter {m : Memory} {cap n a : Nat} (v : Word) (hc : a + n ≤ cap) (h : m.legal cap) :
    (scatter n a v m).legal cap :=
  ⟨scatter_wf h.1, scatter_within h.2 hc⟩

/-- An access that reaches a window lies below its capacity. -/
theorem add_le_of_target_key {a n j : Nat} (h : target s a n = .key j) : j + n ≤ s.keycap.toNat := by
  obtain ⟨hlo, hhi, -, hj⟩ := target_eq_key.1 h
  omega

theorem add_le_of_target_data {a n i : Nat} (h : target s a n = .data i) : i + n ≤ s.bufcap.toNat := by
  obtain ⟨hlo, hhi, -, hi⟩ := target_data h
  omega

theorem StepEffect.bufcap_eq (h : StepEffect s t) : t.bufcap = s.bufcap := by
  cases h with
  | _ => rename_i h; exact h.bufcap

theorem StepEffect.keycap_eq (h : StepEffect s t) : t.keycap = s.keycap := by
  cases h with
  | _ => rename_i h; exact h.keycap

/-- The data buffer changes by a completion, a write to the data window and a reset alone. -/
theorem StepEffect.dbuf_legal (h : StepEffect s t) (hs : s.dbuf.legal s.bufcap.toNat) :
    t.dbuf.legal s.bufcap.toNat := by
  cases h with
  | completed n m _ _ writes h =>
    rw [h.dbuf]
    exact writes.2 _ (fun _ _ b hi hm => Memory.legal_write b hi hm) hs
  | dataStored addr n v i _ reaches h =>
    rw [h.dbuf]
    exact Memory.legal_scatter v (add_le_of_target_data reaches) hs
  | reset _ h =>
    rw [h.dbuf]
    exact Memory.legal_nil _
  | _ => rename_i h; exact h.dbuf ▸ hs

/-- The key memory changes by a write to the key window and a reset alone. -/
theorem StepEffect.keymem_legal (h : StepEffect s t) (hs : s.keymem.legal s.keycap.toNat) :
    t.keymem.legal s.keycap.toNat := by
  cases h with
  | keyStored addr n v j _ _ reaches h =>
    rw [h.keymem]
    exact Memory.legal_scatter v (add_le_of_target_key reaches) hs
  | reset _ h =>
    rw [h.keymem]
    exact Memory.legal_nil _
  | _ => rename_i h; exact h.keymem ▸ hs

/-- Validation reads LEN, KEYLEN and the capacities alone. -/
theorem validate_congr (w : Word) (hlen : t.len = s.len) (hkeylen : t.keylen = s.keylen)
    (hbufcap : t.bufcap = s.bufcap) (hkeycap : t.keycap = s.keycap) : validate w t = validate w s := by
  unfold validate
  rw [hlen, hkeylen, hbufcap, hkeycap]

/-- A served event that leaves LEN, KEYLEN and the capacities leaves the verdict of validation. -/
theorem Served.validate_eq {u : State} (h : Served u t) (w : Word) (hlen : u.len = s.len)
    (hkeylen : u.keylen = s.keylen) (hbufcap : u.bufcap = s.bufcap) (hkeycap : u.keycap = s.keycap) : validate w t = validate w s :=
  validate_congr w (h.len.trans hlen) (h.keylen.trans hkeylen) (h.bufcap.trans hbufcap) (h.keycap.trans hkeycap)

/-- A served event that leaves CMD, validation's operands, BUSY, DONE and ERR leaves a legal flight legal. -/
theorem Served.flightLegal_of_status {x : Status} (h : Served (s.setStatus x) t) (hbusy : x.busy = s.status.busy)
    (hdone : x.done = s.status.done) (herr : x.err = s.status.err) (hs : flightLegal s = true) :
    flightLegal t = true := by
  rw [flightLegal_iff] at hs ⊢
  have hv : validate s.cmd t = validate s.cmd s := h.validate_eq _ rfl rfl rfl rfl
  simpa [h.status, h.cmd, hv, hbusy, hdone, herr] using hs

/-- With BUSY = 0 nothing is in flight. -/
theorem flightLegal_of_not_busy (hb : t.status.busy = false) : flightLegal t = true := by
  rw [flightLegal_iff, hb]
  exact fun h => Bool.noConfusion h

/-- An accepted issue puts a validated command in flight; everything else that BUSY = 1 allows leaves it there. -/
theorem StepEffect.flightLegal (h : StepEffect s t) (hs : flightLegal s = true) : flightLegal t = true := by
  cases h with
  | kept h => exact h.flightLegal_of_status (x := s.status) rfl rfl rfl hs
  | statusWritten v _ h => exact h.flightLegal_of_status rfl rfl rfl hs
  | dropped _ _ _ _ _ h => exact h.flightLegal_of_status rfl rfl rfl hs
  | started w _ _ valid h =>
    have hv : validate w t = validate w s := h.validate_eq w rfl rfl rfl rfl
    rw [flightLegal_iff, h.cmd, h.status]
    exact fun _ => ⟨hv.trans valid, rfl, rfl⟩
  | completed _ _ _ _ _ h => exact flightLegal_of_not_busy (by rw [h.status]; rfl)
  | reset _ h => exact flightLegal_of_not_busy (by rw [h.status]; rfl)
  | _ =>
    rename_i h
    refine flightLegal_of_not_busy ?_
    rw [h.status]
    exact ‹s.status.busy = false›

/-- Every effect that shows an error sets DONE with it. -/
theorem StepEffect.reportLegal (h : StepEffect s t) (hs : reportLegal s = true) : reportLegal t = true := by
  rw [reportLegal_iff] at hs ⊢
  cases h with
  | completed _ _ _ _ _ h => exact .inr (by rw [h.status]; rfl)
  | started _ _ _ _ h => exact .inl (by rw [h.status]; rfl)
  | rejected _ _ _ h => exact .inr (by rw [h.status]; rfl)
  | reset _ h => exact .inl (by rw [h.status]; rfl)
  | _ =>
    rename_i h
    rw [h.status]
    exact hs

/-- Settles O48: each part of the invariant survives the step's effect. -/
theorem stepKeepsTheInvariant : Obligations.StepKeepsTheInvariant := by
  rintro s t ⟨hcaps, hmem, hflight, hreport⟩ hstep
  have heffect := stepEffect_of_step hstep
  rw [memoriesLegal_iff] at hmem
  refine ⟨?_, memoriesLegal_iff.2 ?_, heffect.flightLegal hflight, heffect.reportLegal hreport⟩
  · rwa [capsLegal_iff, heffect.bufcap_eq, heffect.keycap_eq, ← capsLegal_iff]
  · rw [heffect.bufcap_eq, heffect.keycap_eq]
    exact ⟨heffect.dbuf_legal hmem.1, heffect.keymem_legal hmem.2⟩

/-- BUF_MAX as a number (R9). -/
theorem toNat_bufMax : Config.bufMax.toNat = 16 * (Config.bufBlocks.val + 1) := by
  have hlt := Config.bufBlocks.isLt
  rw [Config.bufMax, BitVec.toNat_ofNat]
  omega

/-- KEY_MAX as a number (R10). -/
theorem toNat_keyMax : Config.keyMax.toNat = Config.keyBytes.val + 1 := by
  have hlt := Config.keyBytes.isLt
  rw [Config.keyMax, BitVec.toNat_ofNat]
  omega

theorem capsLegal_reset : capsLegal State.reset = true := by
  have hbuf := Config.bufBlocks.isLt
  have hkey := Config.keyBytes.isLt
  refine capsLegal_iff.2 ?_
  change Config.bufMax.toNat % 16 = 0 ∧ 16 ≤ Config.bufMax.toNat ∧ Config.bufMax.toNat ≤ _ ∧
    1 ≤ Config.keyMax.toNat ∧ Config.keyMax.toNat ≤ _
  rw [toNat_bufMax, toNat_keyMax]
  omega

/-- Settles O47: the capacities of `Config` are legal, and everything else starts empty or clear. -/
theorem resetSatisfiesTheInvariant : Obligations.ResetSatisfiesTheInvariant :=
  ⟨capsLegal_reset, rfl, rfl, rfl⟩

/-- Settles O29: the reset values by definition, the capacities by their legality. -/
theorem resetStateHoldsTheResetValues : Obligations.ResetStateHoldsTheResetValues :=
  ⟨rfl, rfl, rfl, rfl, rfl, rfl, fun _ => rfl, fun _ => rfl, capsLegal_iff.1 capsLegal_reset⟩

end Sys2Proof.Machine
end

section
/-! Safety and completion of a command in flight (10_state.md R42, R210, 60_exceptions.md R209): what validation has
checked leaves a read of an unfilled byte as the only fault, so a command whose operands are filled completes. -/

namespace Sys2Proof.Machine

variable {s t u : State} {f : Fault} {n k : Nat}

/-- The fault names one of the first n bytes of DBUF, or one of the first k key bytes, that exists but has no value. -/
def UnfilledRead (s : State) (n k : Nat) (f : Fault) : Prop :=
  (∃ a < n, f = .unfilledData a ∧ a < s.bufcap.toNat ∧ s.dbuf.read a = none) ∨
    ∃ p < k, f = .unfilledKey (p % s.keylen.toNat) ∧ p % s.keylen.toNat < s.keycap.toNat ∧
      s.keymem.read (p % s.keylen.toNat) = none

/-- LEN and KEYLEN are what validation of a key-using command asks for (R99). -/
structure OperandsInRange (s : State) : Prop where
  len_le : s.len.toNat ≤ s.bufcap.toNat
  keylen_pos : 1 ≤ s.keylen.toNat
  keylen_le : s.keylen.toNat ≤ s.keycap.toNat

theorem WritesBuffer.operandsInRange (h : WritesBuffer s t) (hs : OperandsInRange s) : OperandsInRange t := by
  rw [h.1]
  exact { hs with }

/-- Writing bytes fills them, so a byte without a value had none before. -/
theorem WritesBuffer.unfilledRead (h : WritesBuffer s t) (ht : UnfilledRead t n k f) : UnfilledRead s n k f := by
  have hnone (a : Nat) : t.dbuf.read a = none → s.dbuf.read a = none := by
    refine h.2 (fun m => m.read a = none → s.dbuf.read a = none) (fun m i b _ hm hw => hm ?_) id
    rw [Memory.read_write] at hw
    split_ifs at hw
    exact hw
  unfold UnfilledRead at ht ⊢
  rw [h.keylen_eq, h.keycap_eq, h.keymem_eq, h.bufcap_eq] at ht
  rcases ht with ⟨a, ha, hf, hcap, hread⟩ | hkey
  · exact .inl ⟨a, ha, hf, hcap, hnone a hread⟩
  · exact .inr hkey

/-- An engine read of the buffer. -/
theorem readData_fault {i : Nat} (hi : i < n) (hn : n ≤ s.bufcap.toNat) (h : readData s i = .error f) :
    UnfilledRead s n k f := by
  rcases readData_eq_error.1 h with ⟨hcap, hread, hf⟩ | ⟨hcap, -⟩
  · exact .inl ⟨i, hi, hf, hcap, hread⟩
  · omega

/-- A read of a key byte. -/
theorem keyAt_fault {i : Nat} (hs : OperandsInRange s) (hi : i < k) (h : keyAt s i = .error f) :
    UnfilledRead s n k f := by
  obtain ⟨-, hpos, hle⟩ := hs
  have hmod := Nat.mod_lt i hpos
  rcases keyAt_eq_error.1 h with ⟨hzero, -⟩ | ⟨-, h⟩
  · omega
  · rcases readKey_eq_error.1 h with ⟨hcap, hread, hf⟩ | ⟨hcap, -⟩
    · exact .inr ⟨i, hi, hf, hcap, hread⟩
    · omega

theorem writeData_ne_error {i : Nat} {b : Byte} (hi : i < s.bufcap.toNat) : writeData s i b ≠ .error f := by
  rw [Ne, writeData_eq_error]
  omega

/-- The key-XOR loop inside the buffer. -/
theorem keyXorFrom_fault {j i : Nat} (hs : OperandsInRange s) (hi : i + j ≤ s.len.toNat)
    (h : keyXorFrom j i s = .error f) : UnfilledRead s s.len.toNat s.len.toNat f := by
  induction j generalizing i s with
  | zero => cases h
  | succ j ih =>
    rcases bind_eq_error.1 h with h | ⟨b, -, h⟩
    · exact readData_fault (by omega) hs.len_le h
    rcases bind_eq_error.1 h with h | ⟨key, -, h⟩
    · exact keyAt_fault hs (by omega) h
    rcases bind_eq_error.1 h with h | ⟨u, hu, h⟩
    · exact absurd h (writeData_ne_error (by have := hs.len_le; omega))
    · have hw := writeData_writes hu
      have hrest := ih (hw.operandsInRange hs) (by rw [hw.len_eq]; omega) h
      rw [hw.len_eq] at hrest
      exact hw.unfilledRead hrest

theorem keyXor_fault (hs : OperandsInRange s) (h : keyXor s = .error f) :
    UnfilledRead s s.len.toNat s.len.toNat f :=
  keyXorFrom_fault hs (by omega) h

theorem cursorIndex_natCast (c : Nat) : cursorIndex (c : Int) = .ok c := by
  simp [cursorIndex]

/-- An exchange inside the buffer. -/
theorem exchange_fault {a b : Nat} (ha : a < n) (hb : b < n) (hn : n ≤ s.bufcap.toNat)
    (h : exchange s a b = .error f) : UnfilledRead s n k f := by
  rw [exchange, cursorIndex_natCast, ok_bind, cursorIndex_natCast, ok_bind] at h
  rcases bind_eq_error.1 h with h | ⟨x, -, h⟩
  · exact readData_fault ha hn h
  rcases bind_eq_error.1 h with h | ⟨y, -, h⟩
  · exact readData_fault hb hn h
  rcases bind_eq_error.1 h with h | ⟨u, hu, h⟩
  · exact absurd h (writeData_ne_error (by omega))
  · exact absurd h (writeData_ne_error (by rw [(writeData_writes hu).bufcap_eq]; omega))

theorem exchangeIfOdd_fault {a b : Nat} {key : Byte} (ha : a < n) (hb : b < n) (hn : n ≤ s.bufcap.toNat)
    (h : exchangeIfOdd key s a b = .error f) : UnfilledRead s n k f := by
  unfold exchangeIfOdd at h
  split_ifs at h
  exact exchange_fault ha hb hn h

/-- The swap loop, with the cursors where R151 says they are: no cursor is negative and none leaves the buffer. -/
theorem swapFrom_fault {j i start stop : Nat} (hs : OperandsInRange s) (hle : start ≤ stop)
    (hsum : start + stop + 1 = s.len.toNat) (hi : i + j ≤ s.len.toNat)
    (h : swapFrom s.len.toNat j i start stop s = .error f) : UnfilledRead s s.len.toNat s.len.toNat f := by
  induction j generalizing i start stop s with
  | zero => cases h
  | succ j ih =>
    rcases bind_eq_error.1 h with h | ⟨key, -, h⟩
    · exact keyAt_fault hs (by omega) h
    rcases bind_eq_error.1 h with h | ⟨u, hu, h⟩
    · exact exchangeIfOdd_fault (by omega) (by omega) hs.len_le h
    have hw := exchangeIfOdd_writes hu
    rw [← hw.len_eq] at hsum hi h ⊢
    obtain ⟨start', stop', hle', hsum', hrest⟩ : ∃ a b : Nat, a ≤ b ∧ a + b + 1 = u.len.toNat ∧
        swapFrom u.len.toNat j (i + 1) a b u = .error f := by
      split_ifs at h
      · exact ⟨0, u.len.toNat - 1, by omega, by omega, by rwa [Nat.cast_sub (by omega)]⟩
      · exact ⟨start + 1, stop - 1, by omega, by omega, by rwa [Nat.cast_sub (by omega)]⟩
    exact hw.unfilledRead (ih (hw.operandsInRange hs) hle' hsum' (by omega) hrest)

theorem swap_fault (hs : OperandsInRange s) (h : swap s = .error f) : UnfilledRead s s.len.toNat s.len.toNat f := by
  unfold swap at h
  by_cases hn : s.len.toNat = 0
  · rw [hn] at h
    cases h
  · have hstop : ((s.len.toNat - 1 : Nat) : Int) = s.len.toNat - 1 := Nat.cast_sub (by omega)
    rw [← hstop] at h
    exact swapFrom_fault (start := 0) (i := 0) hs (by omega) (by omega) (by omega) h

/-- The depad loop inside the buffer. -/
theorem depadLength_fault (hn : n ≤ s.bufcap.toNat) (h : depadLength s n = .error f) : UnfilledRead s n k f := by
  induction n with
  | zero => cases h
  | succ n ih =>
    rcases bind_eq_error.1 h with h | ⟨b, -, h⟩
    · exact readData_fault n.lt_succ_self hn h
    · split_ifs at h
      rcases ih (by omega) h with ⟨a, ha, hdata⟩ | hkey
      · exact .inl ⟨a, by omega, hdata⟩
      · exact .inr hkey

theorem depad_fault (hlen : s.len.toNat ≤ s.bufcap.toNat) (h : depad s = .error f) :
    UnfilledRead s s.len.toNat k f := by
  rcases bind_eq_error.1 h with h | ⟨r, -, h⟩
  · exact depadLength_fault hlen h
  · cases h

/-- A second stage runs on what the first has left of the buffer. -/
theorem stages_fault {g g' : State → Except Fault State} (hs : OperandsInRange s)
    (hg : g s = .error f → UnfilledRead s s.len.toNat s.len.toNat f) (hw : ∀ u, g s = .ok u → WritesBuffer s u)
    (hg' : ∀ u, OperandsInRange u → g' u = .error f → UnfilledRead u u.len.toNat u.len.toNat f)
    (h : g s >>= g' = .error f) : UnfilledRead s s.len.toNat s.len.toNat f := by
  rcases bind_eq_error.1 h with h | ⟨u, hu, h⟩
  · exact hg h
  · have hrest := hg' u ((hw u hu).operandsInRange hs) h
    rw [(hw u hu).len_eq] at hrest
    exact (hw u hu).unfilledRead hrest

theorem blockDecrypt_fault (hs : OperandsInRange s) (h : blockDecrypt s = .error f) :
    UnfilledRead s s.len.toNat s.len.toNat f :=
  stages_fault hs (swap_fault hs) (fun _ => swap_writes)
    (fun _ hu => stages_fault hu (keyXor_fault hu) (fun _ => keyXor_writes) fun _ hv => depad_fault hv.len_le) h

/-- PAD fills the bytes that it appends, so BENC reads no data byte of its own that nothing has filled. -/
theorem blockEncrypt_fault (hs : OperandsInRange s) (hcap : s.bufcap.toNat % 16 = 0) (h : blockEncrypt s = .error f) :
    UnfilledRead s s.len.toNat (ceil16 s.len.toNat) f := by
  obtain ⟨m, hpad, hr⟩ := pad_appends (ceil16_le hs.len_le hcap)
  obtain ⟨-, hlen, -⟩ := pad_frame hpad
  rw [blockEncrypt, hpad, ok_bind] at h
  have hpadded : OperandsInRange ((s.setDbuf m).setLen (BitVec.ofNat 32 (ceil16 s.len.toNat))) :=
    { hs with len_le := hlen.trans_le (ceil16_le hs.len_le hcap) }
  have hfault := stages_fault hpadded (keyXor_fault hpadded) (fun _ => keyXor_writes) (fun _ => swap_fault) h
  rw [hlen] at hfault
  rcases hfault with ⟨a, ha, hf, hacap, hread⟩ | hkey
  · rw [State.setLen_dbuf, State.setDbuf_dbuf, hr] at hread
    split_ifs at hread
    exact .inl ⟨a, by omega, hf, hacap, hread⟩
  · exact .inr hkey

/-- The number of bytes of DBUF that a command can read: PAD reads none (R120). -/
def dataPositions : Instr → State → Nat
  | .pad, _ => 0
  | _, s => s.len.toNat

theorem dataPositions_of_ne_pad {i : Instr} (h : i ≠ .pad) (s : State) : dataPositions i s = s.len.toNat := by
  cases i <;> trivial

/-- What validation has checked (R98, R99). -/
theorem len_le_of_validate {i : Instr} (h : validate (encode i) s = .none) : s.len.toNat ≤ s.bufcap.toNat := by
  rw [validate_encode] at h
  split_ifs at h with hlen
  omega

theorem operandsInRange_of_validate {i : Instr} (hi : i ≠ .pad ∧ i ≠ .depad) (h : validate (encode i) s = .none) :
    OperandsInRange s := by
  rw [validate_encode] at h
  split_ifs at h with hlen hcap hzero
  rw [and_iff_right hi] at hcap hzero
  constructor <;> omega

/-- A command that passes validation stops at an unfilled byte that it can read, and nowhere else (R210). -/
theorem pseudocode_fault {i : Instr} (hcaps : capsLegal s = true) (hv : validate (encode i) s = .none)
    (h : pseudocode i s = .error f) : UnfilledRead s (dataPositions i s) (keyPositions i s) f := by
  have hlen := len_le_of_validate hv
  obtain ⟨hcap, -⟩ := capsLegal_iff.1 hcaps
  cases i with
  | benc => exact blockEncrypt_fault (operandsInRange_of_validate (by decide) hv) hcap h
  | bdec => exact blockDecrypt_fault (operandsInRange_of_validate (by decide) hv) h
  | senc => exact keyXor_fault (operandsInRange_of_validate (by decide) hv) h
  | sdec => exact keyXor_fault (operandsInRange_of_validate (by decide) hv) h
  | pad =>
    obtain ⟨m, hpad, -⟩ := pad_appends (ceil16_le hlen hcap)
    cases hpad.symm.trans h
  | depad => exact depad_fault hlen h
  | kxor => exact keyXor_fault (operandsInRange_of_validate (by decide) hv) h
  | swap => exact swap_fault (operandsInRange_of_validate (by decide) hv) h

/-- A word that passes validation is a command word. -/
theorem exists_eq_encode_of_validate {w : Word} (h : validate w s = .none) : ∃ i, w = encode i := by
  by_contra hno
  rw [not_exists] at hno
  cases h.symm.trans (validate_eq_invalidSelector_iff.2 hno)

/-- The engine's turn with a command in flight. -/
theorem engineTurn_of_decode {i : Instr} (hbusy : s.status.busy = true) (hdecode : decode s.cmd = .ok i) :
    engineTurn s = exec i s := by
  rw [engineTurn, if_pos hbusy, runCommand, hdecode]

theorem engineTurn_of_flight {i : Instr} (hbusy : s.status.busy = true) (hcmd : s.cmd = encode i) :
    engineTurn s = complete (pseudocode i s) := by
  rw [engineTurn_of_decode hbusy (hcmd ▸ decode_encode i), exec_eq_complete]

/-- The three shapes of a step: the engine's turn, a read, and what always goes on. -/
theorem step_shapes (s : State) :
    (EngineTurn s ∧ step s = engineTurn (s.setInputs s.inputs.tail)) ∨
      (∃ addr n, step s = memRead (s.setInputs s.inputs.tail) addr n) ∨ ∃ t, step s = .next t := by
  by_cases hturn : EngineTurn s
  · exact .inl ⟨hturn, step_of_engine (engineTurn_iff.1 hturn)⟩
  cases hin : s.inputs with
  | nil => exact absurd (.inl hin) hturn
  | cons e rest =>
    cases e with
    | engine => exact absurd (.inr (congrArg List.head? hin)) hturn
    | read addr n => exact .inr (.inl ⟨addr, n, step_of_read hin⟩)
    | write addr n v => exact .inr (.inr ⟨_, step_of_write hin⟩)
    | reset => exact .inr (.inr ⟨_, step_of_reset hin⟩)

/-- The engine's turn stops at an unfilled byte of the command in flight, and nowhere else. -/
theorem engineTurn_fault (hcaps : capsLegal s = true) (hflight : flightLegal s = true) (h : engineTurn s = .fault f) :
    ∃ n k, UnfilledRead s n k f := by
  by_cases hbusy : s.status.busy = true
  · obtain ⟨hv, -, -⟩ := flightLegal_iff.1 hflight hbusy
    obtain ⟨i, hi⟩ := exists_eq_encode_of_validate hv
    rw [engineTurn_of_flight hbusy hi, complete_eq_fault] at h
    exact ⟨_, _, pseudocode_fault hcaps (hi ▸ hv) h⟩
  · rw [engineTurn, if_neg hbusy] at h
    cases h

theorem engineTurn_ne_refused {r : Refusal} : engineTurn s ≠ .refused r := by
  unfold engineTurn runCommand
  split_ifs
  · cases decode s.cmd with
    | ok i => exact fun h => complete_ne_refused ((exec_eq_complete i s).symm.trans h)
    | error e => simp
  · simp

/-- A read stops at an unfilled byte of its window, and nowhere else (R222). -/
theorem memRead_fault {addr : Word} {w : Width} (h : memRead s addr w = .fault f) :
    (∃ i, f = .unfilledData i ∧ i < s.bufcap.toNat ∧ s.dbuf.read i = none) ∨
      ∃ j, f = .unfilledKey j ∧ j < s.keycap.toNat ∧ s.keymem.read j = none := by
  rcases memRead_eq_fault h with ⟨j, htarget, hgather⟩ | ⟨i, htarget, -, hgather⟩
  · obtain ⟨k, hk, hread⟩ := gather_eq_error hgather
    have hcap := add_le_of_target_key htarget
    rcases readKey_eq_error.1 hread with ⟨hlt, hnone, hf⟩ | ⟨hge, -⟩
    · exact .inr ⟨j + k, hf, hlt, hnone⟩
    · omega
  · obtain ⟨k, hk, hread⟩ := gather_eq_error hgather
    have hcap := add_le_of_target_data htarget
    rcases readData_eq_error.1 hread with ⟨hlt, hnone, hf⟩ | ⟨hge, -⟩
    · exact .inl ⟨i + k, hf, hlt, hnone⟩
    · omega

/-- Settles O49: a write and a reset go on; a read and the engine's turn stop at unfilled bytes alone. -/
theorem onlyUnfilledBytesCanStopTheMachine : Obligations.OnlyUnfilledBytesCanStopTheMachine := by
  rintro s ⟨hcaps, -, hflight, -⟩
  rcases step_shapes s with ⟨-, hstep⟩ | ⟨addr, n, hstep⟩ | ⟨t, hstep⟩ <;> rw [hstep]
  · refine ⟨fun r => engineTurn_ne_refused, fun f hf => ?_⟩
    obtain ⟨n, k, hunfilled⟩ := engineTurn_fault (s := s.setInputs s.inputs.tail) hcaps hflight hf
    rcases hunfilled with ⟨a, -, hdata⟩ | ⟨p, -, hkey⟩
    · exact .inl ⟨a, hdata⟩
    · exact .inr ⟨_, hkey⟩
  · exact ⟨fun r => memRead_ne_refused, fun f hf => memRead_fault (s := s.setInputs s.inputs.tail) hf⟩
  · exact ⟨nofun, nofun⟩

/-- Over filled operands no read can stop the command. -/
theorem not_unfilledRead {i : Instr} (hdata : i ≠ .pad → dataFilled s s.len.toNat)
    (hkey : keyFilled s (keyPositions i s)) : ¬ UnfilledRead s (dataPositions i s) (keyPositions i s) f := by
  rintro (⟨a, ha, -, -, hnone⟩ | ⟨p, hp, -, -, hnone⟩)
  · have hi : i ≠ .pad := by
      rintro rfl
      exact Nat.not_lt_zero a ha
    rw [dataPositions_of_ne_pad hi] at ha
    simpa [hnone] using hdata hi a ha
  · simpa [hnone] using hkey p hp

/-- A command in flight that is bound to complete: its operands are filled. -/
structure FlightReady (i : Instr) (s : State) : Prop where
  inv : s.Inv
  busy : s.status.busy = true
  cmd : s.cmd = encode i
  data : i ≠ .pad → dataFilled s s.len.toNat
  key : keyFilled s (keyPositions i s)

theorem keyPositions_congr (i : Instr) (h : t.len = s.len) : keyPositions i t = keyPositions i s := by
  cases i <;> simp only [keyPositions, h]

/-- The events to come are no part of what makes a command ready. -/
theorem FlightReady.setInputs {i : Instr} (h : FlightReady i s) (es : List Event) : FlightReady i (s.setInputs es) := by
  obtain ⟨hinv, hbusy, hcmd, hdata, hkey⟩ := h
  refine ⟨hinv, hbusy, hcmd, hdata, ?_⟩
  rwa [keyPositions_congr (s := s) (t := s.setInputs es) i rfl]

/-- The command passes validation and finds its operands filled, so that its pseudocode answers a state. -/
theorem FlightReady.completes {i : Instr} (h : FlightReady i s) :
    ∃ t, engineTurn s = .next t ∧ t.status = { s.status with busy := false, done := true, err := .none } := by
  obtain ⟨⟨hcaps, -, hflight, -⟩, hbusy, hcmd, hdata, hkey⟩ := h
  obtain ⟨hv, -, herr⟩ := flightLegal_iff.1 hflight hbusy
  rw [engineTurn_of_flight hbusy hcmd]
  cases hrun : pseudocode i s with
  | error f => exact absurd (pseudocode_fault hcaps (hcmd ▸ hv) hrun) (not_unfilledRead hdata hkey)
  | ok u =>
    refine ⟨finish u, rfl, ?_⟩
    have hstatus : u.status = s.status := by rw [(pseudocode_frame hrun).eq]; rfl
    rw [finish_eq, State.setStatus_status, hstatus, Status.finished, ← herr]

/-- The engine's turn completes the command. -/
theorem FlightReady.step_completes {i : Instr} (h : FlightReady i s) (hturn : EngineTurn s) :
    ∃ t, step s = .next t ∧ t.status = { s.status with busy := false, done := true, err := .none } := by
  rw [step_of_engine (engineTurn_iff.1 hturn)]
  exact (h.setInputs s.inputs.tail).completes

/-- Settles O50: under these hypotheses the command in flight is ready. -/
theorem commandInFlightCompletes : Obligations.CommandInFlightCompletes :=
  fun _ _ hinv hbusy hcmd hturn hdata hkey => FlightReady.step_completes ⟨hinv, hbusy, hcmd, hdata, hkey⟩ hturn

/-- A host access leaves a command in flight ready (R80). -/
theorem FlightReady.of_host_access {i : Instr} (h : FlightReady i s) (hstep : step s = .next t)
    (hhost : (∃ addr n, s.inputs.head? = some (.read addr n)) ∨ ∃ addr n v, s.inputs.head? = some (.write addr n v)) :
    FlightReady i t ∧ t.inputs = s.inputs.tail := by
  have ht := busyProtectsTheOperands s t h.busy hstep hhost
  have hinv := stepKeepsTheInvariant s t h.inv hstep
  have hpositions : keyPositions i t = keyPositions i s := keyPositions_congr i (by rw [ht])
  have hkey := h.key
  rw [← hpositions] at hkey
  rw [ht] at hinv hkey ⊢
  exact ⟨⟨hinv, h.busy, h.cmd, h.data, hkey⟩, rfl⟩

/-- A poll of STATUS and a write always go on. -/
theorem step_goes_on_of_poll_or_write {e : Event} {rest : List Event} (hin : s.inputs = e :: rest)
    (he : e = .read 0x004 .four ∨ ∃ addr n v, e = .write addr n v) : ∃ t, step s = .next t := by
  rcases he with rfl | ⟨addr, n, v, rfl⟩
  · exact ⟨_, (step_of_read hin).trans (memRead_csr _ .status)⟩
  · exact ⟨_, step_of_write hin⟩

/-- A run goes on with the state that its first step answers. -/
theorem run_succ_of_step (k : Nat) (h : step s = .next t) :
    Sys2Proof.core.run (k + 1) s = Sys2Proof.core.run k t := by
  have hcore : Sys2Proof.core.step s = .next t := h
  simp only [Host.Core.run, hcore]

/-- Settles O51, by induction on the accesses to come: each leaves the command ready, and then the engine
has its turn. -/
theorem issuedCommandEndsWhenTheHostStops : Obligations.IssuedCommandEndsWhenTheHostStops := by
  intro s i hinv hbusy hcmd hdata hkey hevents
  have hready : FlightReady i s := ⟨hinv, hbusy, hcmd, hdata, hkey⟩
  clear hinv hbusy hcmd hdata hkey
  generalize hes : s.inputs = es at hevents
  induction es generalizing s with
  | nil =>
    obtain ⟨t, hstep, hstatus⟩ := hready.step_completes (.inl hes)
    exact ⟨t, run_succ_of_step 0 hstep, by rw [hstatus], by rw [hstatus], by rw [hstatus]⟩
  | cons e rest ih =>
    obtain ⟨he, hrest⟩ := List.forall_mem_cons.1 hevents
    have hhead : s.inputs.head? = some e := congrArg List.head? hes
    obtain ⟨t, hstep⟩ := step_goes_on_of_poll_or_write hes he
    have hhost : (∃ addr n, s.inputs.head? = some (.read addr n)) ∨
        ∃ addr n v, s.inputs.head? = some (.write addr n v) := by
      rcases he with rfl | ⟨addr, n, v, rfl⟩
      · exact .inl ⟨_, _, hhead⟩
      · exact .inr ⟨_, _, _, hhead⟩
    obtain ⟨hnext, hinputs⟩ := hready.of_host_access hstep hhost
    rw [hes] at hinputs
    obtain ⟨u, hrun, hstatus⟩ := ih t hnext hinputs hrest
    exact ⟨u, (run_succ_of_step _ hstep).trans hrun, hstatus⟩

end Sys2Proof.Machine
end

section
/-! The order of the events and the issue (10_state.md R40 to R43): which event a step serves, and what an accepted
issue, a placed command word and a reset leave. -/

namespace Sys2Proof.Machine

variable {s : State}

/-- Settles O1: no command has an operand, so the table's own round trip is all of it. -/
theorem decodeOfEncodeIsIdentity : Obligations.DecodeOfEncodeIsIdentity := decode_encode

/-- Settles O2: the eight patterns are the words that `decode` compares with. -/
theorem tableWordsDecode : Obligations.TableWordsDecode := by
  refine ⟨?_, ?_, ?_, ?_, ?_, ?_, ?_, ?_⟩ <;> decide

/-- Settles O6: the step laws by whose turn it is. -/
theorem stepFollowsTheSchedule : Obligations.StepFollowsTheSchedule := by
  refine ⟨fun s i hturn hbusy hdecode => ?_, fun s hturn hidle => ?_, fun s addr n rest => step_of_read,
    fun s addr n v rest => step_of_write, fun s rest => step_of_reset⟩
  · rw [step_of_engine (engineTurn_iff.1 hturn)]
    exact engineTurn_of_decode (s := s.setInputs s.inputs.tail) hbusy hdecode
  · rw [step_of_engine (engineTurn_iff.1 hturn)]
    exact engineTurn_eq_next.2 (.inl ⟨hidle, rfl⟩)

/-- A 32-bit word read from its own number. -/
theorem ofNat_toNat_mod (w : Word) : BitVec.ofNat 32 (w.toNat % 2 ^ 32) = w := by
  rw [Nat.mod_eq_of_lt w.isLt, BitVec.ofNat_toNat, BitVec.setWidth_eq]

/-- Settles O7: the placed word is in CMD with BUSY = 1, and the engine has the turn. -/
theorem fetchWordRunsTheCommand : Obligations.FetchWordRunsTheCommand := by
  intro s i
  have hplaced : s.withFetchWord 32 (encode i).toNat =
      (startCommand (acceptWord (encode i) s)).setInputs (.engine :: s.inputs) := by
    rw [State.withFetchWord, ofNat_toNat_mod]
  have hturn : EngineTurn (s.withFetchWord 32 (encode i).toNat) := .inr rfl
  obtain ⟨hrun, -⟩ := stepFollowsTheSchedule
  rw [hplaced] at hturn ⊢
  exact hrun _ i hturn rfl (decode_encode i)

/-- A write to CMD that passes validation with BUSY = 0 latches the word and starts the command (R41). -/
theorem issue_of_valid {w : Word} (hb : s.status.busy = false) (hv : validate w s = .none) :
    issue w s = (s.setCmd w).setStatus s.status.accepted.started := by
  rcases issue_cases w s with ⟨hbusy, -⟩ | ⟨-, -, hi⟩ | ⟨-, hne, -⟩
  · cases hbusy.symm.trans hb
  · exact hi
  · exact absurd hv hne

/-- Settles O8: the write reaches CMD, and the issue is accepted. -/
theorem acceptedIssueStartsTheCommand : Obligations.AcceptedIssueStartsTheCommand := by
  intro s w rest hin hb hv
  have hwrite := memWrite_csr (s.setInputs rest) .cmd w
  rw [csrWrite, issue_of_valid (s := s.setInputs rest) hb hv] at hwrite
  exact (step_of_write hin).trans (congrArg _ hwrite)

/-- Settles O30: the reset takes the whole state but the capacities and the model's own record. -/
theorem resetAbandonsEverything : Obligations.ResetAbandonsEverything := fun _ _ => step_of_reset

/-- An empty key is what validation reports of a key-using command after its length checks (R194). -/
theorem validate_eq_emptyKey {i : Instr} (hkey : s.keylen = 0) (hlen : s.len.toNat ≤ s.bufcap.toNat)
    (hi : i ≠ .pad ∧ i ≠ .depad) : validate (encode i) s = .emptyKey := by
  rw [validate_encode, hkey, if_neg (Nat.not_lt.2 hlen), if_neg fun h => Nat.not_lt_zero _ h.2, if_pos ⟨hi, rfl⟩]

/-- The two padding units pass validation whatever the key is. -/
theorem validate_eq_none_of_padding {i : Instr} (hi : i = .pad ∨ i = .depad) (hlen : s.len.toNat ≤ s.bufcap.toNat) :
    validate (encode i) s = .none := by
  rw [validate_encode, if_neg (Nat.not_lt.2 hlen)]
  obtain rfl | rfl := hi <;> rfl

/-- Over an empty buffer the padding units do nothing. -/
theorem pseudocode_padding_of_empty {i : Instr} (hi : i = .pad ∨ i = .depad) (hlen : s.len = 0) :
    pseudocode i s = .ok s := by
  have hself : s.setLen 0 = s := by rw [← hlen, State.setLen_self]
  obtain rfl | rfl := hi
  · rw [pseudocode, pad, hlen]
    exact congrArg Except.ok hself
  · rw [pseudocode, depad, hlen]
    exact congrArg Except.ok hself

/-- Settles O11: validation finds no key; the padding units pass it and find an empty buffer. -/
theorem keyCommandsFailAfterReset : Obligations.KeyCommandsFailAfterReset := by
  refine ⟨fun s i rest hin hb hkey hlen hpad hdepad => ?_, rfl, fun i hi => ?_⟩
  · have hv := validate_eq_emptyKey hkey hlen ⟨hpad, hdepad⟩
    have hstep := rejectedIssueOnlyReports s (encode i) rest hin hb (by rw [hv]; decide)
    rwa [hv] at hstep
  · have hv : validate (encode i) (State.reset.setInputs [.write 0 .four (encode i), .engine]) = .none :=
      validate_eq_none_of_padding hi (Nat.zero_le _)
    refine ⟨_, acceptedIssueStartsTheCommand _ _ _ rfl rfl hv, ?_⟩
    obtain ⟨hrun, -⟩ := stepFollowsTheSchedule
    rw [hrun _ i (.inr rfl) rfl (decode_encode i), exec_eq_complete, pseudocode_padding_of_empty hi rfl]
    rfl

end Sys2Proof.Machine
end

section
/-! The control registers (10_state.md section 3): the layout of STATUS, and reads and writes of each register. -/

namespace Sys2Proof.Machine

variable {s : State}

/-- Settles O17, by evaluation: STATUS has four error codes and three flags, so 32 values. -/
theorem statusWordLayout : Obligations.StatusWordLayout := by
  rintro ⟨busy, done, err, wrbusy⟩
  cases err <;> revert busy done wrbusy <;> decide

/-- A 4-byte read of a register other than an in-flight LEN answers the register's value. -/
theorem step_of_read_csr {c : Csr} {rest : List Event} (hin : s.inputs = .read (csrOffset c) .four :: rest)
    (hexact : ¬ (c = .len ∧ s.status.busy = true)) :
    step s = .next { s with inputs := rest, response := some (.data (csrValue s c)) } := by
  rw [step_of_read hin, memRead_csr, State.setInputs_status, if_neg hexact]
  cases c <;> rfl

/-- A 4-byte write of a register. -/
theorem step_of_write_csr {c : Csr} {v : Word} {rest : List Event}
    (hin : s.inputs = .write (csrOffset c) .four v :: rest) :
    step s = .next ((csrWrite (s.setInputs rest) v c).setResponse (some .okay)) := by
  rw [step_of_write hin, memWrite_csr]

/-- Settles O18: each listed pair is a register's offset and value. -/
theorem controlRegistersReadExactly : Obligations.ControlRegistersReadExactly := by
  intro s off v rest hin hreg
  obtain ⟨c, rfl, rfl, hexact⟩ : ∃ c, off = csrOffset c ∧ v = csrValue s c ∧ ¬ (c = .len ∧ s.status.busy = true) := by
    simp only [List.mem_cons, List.not_mem_nil, or_false, Prod.mk.injEq] at hreg
    obtain (⟨rfl, rfl⟩ | ⟨rfl, rfl⟩ | ⟨rfl, rfl⟩ | ⟨rfl, rfl⟩ | ⟨rfl, rfl⟩ | ⟨rfl, rfl⟩ | ⟨rfl, rfl⟩) |
      ⟨rfl, rfl, hidle⟩ := hreg
    · exact ⟨.cmd, rfl, rfl, by simp⟩
    · exact ⟨.status, rfl, rfl, by simp⟩
    · exact ⟨.keylen, rfl, rfl, by simp⟩
    · exact ⟨.bufcap, rfl, rfl, by simp⟩
    · exact ⟨.keycap, rfl, rfl, by simp⟩
    · exact ⟨.blksz, rfl, rfl, by simp⟩
    · exact ⟨.padval, rfl, rfl, by simp⟩
    · exact ⟨.len, rfl, rfl, by simp [hidle]⟩
  exact step_of_read_csr hin hexact

/-- Settles O24: what a write does to each register. -/
theorem registerWritesWithBusyClear : Obligations.RegisterWritesWithBusyClear := by
  intro s off v rest hin
  refine ⟨?_, ?_, ?_, ?_⟩
  · rintro rfl hidle
    rw [step_of_write_csr (c := .len) hin, csrWrite, unlessBusy, if_neg (by simp [hidle])]
    rfl
  · rintro rfl hidle
    rw [step_of_write_csr (c := .keylen) hin, csrWrite, unlessBusy, if_neg (by simp [hidle])]
    rfl
  · rintro rfl
    exact step_of_write_csr (c := .status) hin
  · rintro (rfl | rfl | rfl | rfl)
    · exact step_of_write_csr (c := .bufcap) hin
    · exact step_of_write_csr (c := .keycap) hin
    · exact step_of_write_csr (c := .blksz) hin
    · exact step_of_write_csr (c := .padval) hin

end Sys2Proof.Machine
end

section
/-! The two windows (20_memory.md R62 to R74): a host access inside a window gathers or scatters the bytes of the
memory behind it, little-endian. -/

namespace Sys2Proof.Machine

variable {s : State} {addr : Word} {w : Width} {v : Word} {rest : List Event}

theorem Width.bytes_le_four (w : Width) : w.bytes ≤ 4 := by
  cases w <;> decide

theorem target_of_keyAccess (h : KeyAccess s addr w) : target s addr.toNat w.bytes = .key (addr.toNat - 0x1000) := by
  obtain ⟨hlo, hhi, hal⟩ := h
  exact target_eq_key.2 ⟨hlo, hhi, hal, rfl⟩

theorem target_of_dataAccess (hcaps : capsLegal s = true) (h : DataAccess s addr w) :
    target s addr.toNat w.bytes = .data (addr.toNat - 0x10000) := by
  obtain ⟨-, -, -, -, hkeycap⟩ := capsLegal_iff.1 hcaps
  obtain ⟨hlo, hhi, hal⟩ := h
  exact target_eq_data hkeycap hlo hhi hal

/-- What a read of a window does. -/
theorem memRead_of_key {j : Nat} (h : target s addr.toNat w.bytes = .key j) :
    memRead s addr w = answer s (gather (readKey s) w.bytes j) := by
  rw [memRead, h]

theorem memRead_of_data {i : Nat} (h : target s addr.toNat w.bytes = .data i) (hidle : s.status.busy = false) :
    memRead s addr w = answer s (gather (readData s) w.bytes i) := by
  rw [memRead, h]
  exact if_neg (by simp [hidle])

theorem memRead_of_data_of_busy {i : Nat} (h : target s addr.toNat w.bytes = .data i) (hbusy : s.status.busy = true) :
    memRead s addr w = .next (answerFree s w.bytes) := by
  rw [memRead, h]
  exact if_pos hbusy

theorem memRead_of_nowhere (h : target s addr.toNat w.bytes = .nowhere) :
    memRead s addr w = .next (s.setResponse (some (.busError addr))) := by
  rw [memRead, h]

/-- What a write of a window does with BUSY = 0. -/
theorem memWrite_of_key {j : Nat} (h : target s addr.toNat w.bytes = .key j) (hidle : s.status.busy = false) :
    memWrite s addr w v = (s.setKeymem (scatter w.bytes j v s.keymem)).setResponse (some .okay) := by
  rw [memWrite, h]
  exact congrArg (State.setResponse · _) (if_neg (by simp [hidle]))

theorem memWrite_of_data {i : Nat} (h : target s addr.toNat w.bytes = .data i) (hidle : s.status.busy = false) :
    memWrite s addr w v = (s.setDbuf (scatter w.bytes i v s.dbuf)).setResponse (some .okay) := by
  rw [memWrite, h]
  exact congrArg (State.setResponse · _) (if_neg (by simp [hidle]))

/-- On the n places from a on, `rd` answers the bytes that the memory holds, and the fault `unfilled` elsewhere. -/
def ReadsAt (rd : Nat → Except Fault Byte) (unfilled : Nat → Fault) (m : Memory) (n a : Nat) : Prop :=
  ∀ k < n, rd (a + k) = match m.read (a + k) with
    | some b => .ok b
    | none => .error (unfilled (a + k))

theorem readsAt_readKey {n j : Nat} (h : j + n ≤ s.keycap.toNat) : ReadsAt (readKey s) .unfilledKey s.keymem n j :=
  fun _ hk => if_pos (by omega)

theorem readsAt_readData {n i : Nat} (h : i + n ≤ s.bufcap.toNat) : ReadsAt (readData s) .unfilledData s.dbuf n i :=
  fun _ hk => if_pos (by omega)

section
variable {rd : Nat → Except Fault Byte} {unfilled : Nat → Fault} {m : Memory} {n a : Nat}

theorem ReadsAt.eq_ok (h : ReadsAt rd unfilled m n a) {k : Nat} {b : Byte} (hk : k < n) (hb : m.read (a + k) = some b) :
    rd (a + k) = .ok b := by
  rw [h k hk, hb]

theorem ReadsAt.eq_error (h : ReadsAt rd unfilled m n a) {k : Nat} {f : Fault} (hk : k < n)
    (hf : rd (a + k) = .error f) : m.read (a + k) = none ∧ f = unfilled (a + k) := by
  rw [h k hk] at hf
  cases hb : m.read (a + k) with
  | some b => rw [hb] at hf; cases hf
  | none => rw [hb] at hf; cases hf; exact ⟨rfl, rfl⟩

/-- Filled bytes are gathered little-endian and zero-extended (R66). -/
theorem gather_of_filled (h : ReadsAt rd unfilled m n a) (hn : n ≤ 4)
    (hf : ∀ k < n, (m.read (a + k)).isSome = true) :
    ∃ v, gather rd n a = .ok v ∧ (∀ k < n, m.read (a + k) = some (v.extractLsb' (8 * k) 8)) ∧
      ∀ b, 8 * n ≤ b → v.getLsbD b = false := by
  have hbyte : ∀ k < n, m.read (a + k) = some ((m.read (a + k)).getD 0) := fun k hk => by
    obtain ⟨b, hb⟩ := Option.isSome_iff_exists.1 (hf k hk)
    rw [hb]
    rfl
  obtain ⟨v, hv, hbytes, hzero⟩ := gather_bytes hn fun k hk => h.eq_ok hk (hbyte k hk)
  exact ⟨v, hv, fun k hk => by rw [hbytes k hk]; exact hbyte k hk, hzero⟩

/-- A gather that answers has read every byte. -/
theorem read_ok_of_gather_ok {v : Word} {k : Nat} (h : gather rd n a = .ok v) (hk : k < n) :
    ∃ b, rd (a + k) = .ok b := by
  induction n generalizing a v k with
  | zero => exact absurd hk (Nat.not_lt_zero k)
  | succ n ih =>
    obtain ⟨b, hb, h⟩ := bind_eq_ok.1 h
    obtain ⟨u, hu, -⟩ := bind_eq_ok.1 h
    cases k with
    | zero => exact ⟨b, hb⟩
    | succ k =>
      obtain ⟨c, hc⟩ := ih hu (Nat.lt_of_succ_lt_succ hk)
      exact ⟨c, by rw [← hc, Nat.add_assoc, Nat.add_comm 1]⟩

/-- A byte without a value stops the gather, at such a byte (R222). -/
theorem gather_of_unfilled (h : ReadsAt rd unfilled m n a) (hnone : ∃ k < n, m.read (a + k) = none) :
    ∃ k < n, m.read (a + k) = none ∧ gather rd n a = .error (unfilled (a + k)) := by
  obtain ⟨j, hj, hjnone⟩ := hnone
  cases hg : gather rd n a with
  | ok v =>
    obtain ⟨b, hb⟩ := read_ok_of_gather_ok hg hj
    rw [h j hj, hjnone] at hb
    cases hb
  | error f =>
    obtain ⟨k, hk, hf⟩ := gather_eq_error hg
    obtain ⟨hknone, rfl⟩ := h.eq_error hk hf
    exact ⟨k, hk, hknone, rfl⟩

/-- A word whose low n bytes are those of v, with zeros above them. -/
theorem eq_lowBytes {u : Word} (hbytes : ∀ k < n, u.extractLsb' (8 * k) 8 = v.extractLsb' (8 * k) 8)
    (hzero : ∀ b, 8 * n ≤ b → u.getLsbD b = false) : u = lowBytes n v := by
  apply BitVec.eq_of_getLsbD_eq
  intro i hi
  rw [lowBytes, BitVec.getLsbD_setWidth, BitVec.getLsbD_setWidth, decide_eq_true hi, Bool.true_and]
  by_cases hin : i < 8 * n
  · have hbit := congrArg (BitVec.getLsbD · (i % 8)) (hbytes (i / 8) (by omega))
    simpa [Nat.div_add_mod, Nat.mod_lt, hin] using hbit
  · simp [hin, hzero i (by omega)]

/-- What a scatter has written, a gather of the same places answers. -/
theorem gather_scatter (h : ReadsAt rd unfilled (scatter n a v m) n a) (hn : n ≤ 4) :
    gather rd n a = .ok (lowBytes n v) := by
  have hwritten : ∀ k < n, (scatter n a v m).read (a + k) = some (v.extractLsb' (8 * k) 8) := fun k hk => by
    rw [scatter_read, if_pos (by omega), Nat.add_sub_cancel_left]
  obtain ⟨u, hu, hbytes, hzero⟩ := gather_bytes hn fun k hk => h.eq_ok hk (hwritten k hk)
  rw [hu, eq_lowBytes hbytes hzero]

end

/-- Settles O20: inside its window the access gathers filled bytes. -/
theorem windowReadsAreLittleEndian : Obligations.WindowReadsAreLittleEndian := by
  intro s addr w rest hin hcaps
  constructor
  · intro hacc hfilled
    have htarget := target_of_keyAccess (s := s.setInputs rest) hacc
    obtain ⟨v, hv, hbytes⟩ :=
      gather_of_filled (readsAt_readKey (add_le_of_target_key htarget)) w.bytes_le_four hfilled
    exact ⟨v, by rw [step_of_read hin, memRead_of_key htarget, hv]; rfl, hbytes⟩
  · intro hacc hidle hfilled
    have htarget := target_of_dataAccess (s := s.setInputs rest) hcaps hacc
    obtain ⟨v, hv, hbytes⟩ :=
      gather_of_filled (readsAt_readData (add_le_of_target_data htarget)) w.bytes_le_four hfilled
    exact ⟨v, by rw [step_of_read hin, memRead_of_data htarget hidle, hv]; rfl, hbytes⟩

/-- Settles O21: inside its window the access stops at a byte without a value. -/
theorem unfilledWindowReadFaults : Obligations.UnfilledWindowReadFaults := by
  intro s addr w rest hin hcaps
  constructor
  · intro hacc hnone
    have htarget := target_of_keyAccess (s := s.setInputs rest) hacc
    obtain ⟨k, hk, hknone, hg⟩ := gather_of_unfilled (readsAt_readKey (add_le_of_target_key htarget)) hnone
    exact ⟨k, hk, hknone, by rw [step_of_read hin, memRead_of_key htarget, hg]; rfl⟩
  · intro hacc hidle hnone
    have htarget := target_of_dataAccess (s := s.setInputs rest) hcaps hacc
    obtain ⟨k, hk, hknone, hg⟩ := gather_of_unfilled (readsAt_readData (add_le_of_target_data htarget)) hnone
    exact ⟨k, hk, hknone, by rw [step_of_read hin, memRead_of_data htarget hidle, hg]; rfl⟩

/-- Settles O22: inside its window the access scatters the bytes of the value. -/
theorem windowWritesStoreTheirBytes : Obligations.WindowWritesStoreTheirBytes := by
  intro s addr w v rest hin hcaps hidle
  constructor
  · intro hacc
    have htarget := target_of_keyAccess (s := s.setInputs rest) hacc
    exact ⟨_, (step_of_write hin).trans (congrArg _ (memWrite_of_key htarget hidle)), scatter_read _ _ _ _⟩
  · intro hacc
    have htarget := target_of_dataAccess (s := s.setInputs rest) hcaps hacc
    exact ⟨_, (step_of_write hin).trans (congrArg _ (memWrite_of_data htarget hidle)), scatter_read _ _ _ _⟩

/-- A read of the bytes that a write of the same window has just scattered. -/
theorem memRead_key_of_scatter {j : Nat} {m : Memory} (h : target s addr.toNat w.bytes = .key j)
    (hm : s.keymem = scatter w.bytes j v m) :
    memRead s addr w = .next (s.setResponse (some (.data (lowBytes w.bytes v)))) := by
  have hreads := readsAt_readKey (add_le_of_target_key h)
  rw [hm] at hreads
  rw [memRead_of_key h, gather_scatter hreads w.bytes_le_four, answer]

theorem memRead_data_of_scatter {i : Nat} {m : Memory} (h : target s addr.toNat w.bytes = .data i)
    (hidle : s.status.busy = false) (hm : s.dbuf = scatter w.bytes i v m) :
    memRead s addr w = .next (s.setResponse (some (.data (lowBytes w.bytes v)))) := by
  have hreads := readsAt_readData (add_le_of_target_data h)
  rw [hm] at hreads
  rw [memRead_of_data h hidle, gather_scatter hreads w.bytes_le_four, answer]

/-- Settles O23: the read gathers what the write has scattered, and reaches the same window after it. -/
theorem windowReadAfterWriteReturnsTheValue : Obligations.WindowReadAfterWriteReturnsTheValue := by
  intro s addr w v rest hin hcaps hidle hacc
  rcases hacc with hacc | hacc
  · have htarget := target_of_keyAccess (s := s.setInputs (.read addr w :: rest)) hacc
    have hwrite := (step_of_write hin).trans (congrArg _ (memWrite_of_key htarget hidle))
    exact ⟨_, _, hwrite, (step_of_read rfl).trans (memRead_key_of_scatter htarget rfl), rfl, rfl⟩
  · have htarget := target_of_dataAccess (s := s.setInputs (.read addr w :: rest)) hcaps hacc
    have hwrite := (step_of_write hin).trans (congrArg _ (memWrite_of_data htarget hidle))
    exact ⟨_, _, hwrite, (step_of_read rfl).trans (memRead_data_of_scatter htarget hidle rfl), rfl, rfl⟩

/-- Settles O19: with BUSY = 1 the access answers a free value before it looks at any byte. -/
theorem readsInFlightAnswerAFreeValue : Obligations.ReadsInFlightAnswerAFreeValue := by
  rintro s addr w rest hin hcaps hbusy (⟨rfl, rfl⟩ | hacc)
  · have hread := memRead_csr (s.setInputs rest) .len
    rw [if_pos ⟨rfl, hbusy⟩] at hread
    exact (step_of_read hin).trans hread
  · have htarget := target_of_dataAccess (s := s.setInputs rest) hcaps hacc
    exact (step_of_read hin).trans (memRead_of_data_of_busy htarget hbusy)

/-- With BUSY = 0 a read does not depend on the answer of the read before it. -/
theorem memRead_setResponse (hidle : s.status.busy = false) (addr : Word) (w : Width) (r : Option Response) :
    memRead (s.setResponse r) addr w = memRead s addr w := by
  have hanswer (x : Except Fault Word) : answer (s.setResponse r) x = answer s x := by cases x <;> rfl
  cases htarget : target s addr.toNat w.bytes with
  | csr c =>
    obtain ⟨hn, ha⟩ := target_eq_csr.1 htarget
    obtain rfl := Width.eq_four_of_bytes hn
    obtain rfl : addr = csrOffset c := BitVec.eq_of_toNat_eq ha
    have hexact : ¬ (c = .len ∧ s.status.busy = true) := by simp [hidle]
    rw [memRead_csr, memRead_csr, State.setResponse_status, if_neg hexact, if_neg hexact]
    cases c <;> rfl
  | key j =>
    rw [memRead_of_key htarget, memRead_of_key (s := s.setResponse r) htarget]
    exact hanswer _
  | data i =>
    rw [memRead_of_data htarget hidle, memRead_of_data (s := s.setResponse r) htarget hidle]
    exact hanswer _
  | nowhere =>
    rw [memRead_of_nowhere htarget, memRead_of_nowhere (s := s.setResponse r) htarget, State.setResponse_twice]

/-- Settles O26: a read leaves the block, and with BUSY = 0 the count of drawn values too. -/
theorem readsChangeNoStateOfTheBlock : Obligations.ReadsChangeNoStateOfTheBlock := by
  constructor
  · intro s t addr w rest hin hstep
    rw [step_of_read hin] at hstep
    exact memRead_eq_next hstep
  · intro s t addr w hidle hread
    obtain ⟨ht, hdraws⟩ := memRead_eq_next hread
    rw [hdraws hidle] at ht
    have hset : t = s.setResponse t.response := ht
    rw [hset, memRead_setResponse hidle, hread, ← hset]

end Sys2Proof.Machine
end

section
/-! The units run again (40_padding.md, 41_key_xor.md, 42_swap.md): PAD and DEPAD are idempotent, SENC and SDEC are
KXOR, SWAP is its own inverse and looks at no data byte. -/

namespace Sys2Proof.Machine

variable {s t : State}

/-- A second completion changes nothing. -/
theorem finish_finish (s : State) : finish (finish s) = finish s := rfl

/-- The padded length needs no padding. -/
theorem pad_of_mod_eq_zero (h : s.len.toNat % 16 = 0) : pad s = .ok s := by
  have hceil : ceil16 s.len.toNat = s.len.toNat := by rw [ceil16_eq]; omega
  rw [pad, hceil, Nat.sub_self, BitVec.ofNat_toNat, BitVec.setWidth_eq]
  rfl

/-- The depad loop looks at DBUF and BUF_MAX alone. -/
theorem depadLength_congr (hdbuf : t.dbuf = s.dbuf) (hcap : t.bufcap = s.bufcap) (n : Nat) :
    depadLength t n = depadLength s n := by
  have hread (i : Nat) : readData t i = readData s i := by rw [readData, readData, hdbuf, hcap]
  induction n with
  | zero => rfl
  | succ n ih => rw [depadLength, depadLength, hread, ih]

/-- At the length that it answers, the depad loop stops at once. -/
theorem depadLength_idempotent {n r : Nat} (h : depadLength s n = .ok r) : depadLength s r = .ok r := by
  induction n with
  | zero => cases h; rfl
  | succ n ih =>
    have hloop := h
    obtain ⟨b, -, h⟩ := bind_eq_ok.1 h
    split_ifs at h
    · exact ih h
    · cases h
      exact hloop

/-- `Depad()` on what `Depad()` left changes nothing. -/
theorem depad_idempotent (h : depad s = .ok t) : depad (finish t) = .ok (finish t) := by
  obtain ⟨r, hloop, rfl⟩ := depad_eq_ok h
  obtain ⟨hr, -⟩ := depadLength_eq_ok hloop
  have hlen : (BitVec.ofNat 32 r).toNat = r := Nat.mod_eq_of_lt (by have := s.len.isLt; omega)
  have hagain : depadLength (finish (s.setLen (BitVec.ofNat 32 r))) (BitVec.ofNat 32 r).toNat = .ok r := by
    rw [hlen, depadLength_congr (s := s) (t := finish (s.setLen (BitVec.ofNat 32 r))) rfl rfl]
    exact depadLength_idempotent hloop
  exact bind_eq_ok.2 ⟨r, hagain, rfl⟩

/-- Settles O45: the padded length is a multiple of 16, and the depad loop stops where it has stopped. -/
theorem padAndDepadAreIdempotent : Obligations.PadAndDepadAreIdempotent := by
  intro s t
  constructor
  · intro h
    obtain ⟨u, hu, rfl⟩ := exec_eq_next.1 h
    obtain ⟨-, hlen, -⟩ := pad_frame hu
    have hmod : (finish u).len.toNat % 16 = 0 := by
      rw [finish_eq, State.setStatus_len, hlen]
      exact ceil16_mod _
    exact exec_eq_next.2 ⟨_, pad_of_mod_eq_zero hmod, (finish_finish u).symm⟩
  · intro h
    obtain ⟨u, hu, rfl⟩ := exec_eq_next.1 h
    exact exec_eq_next.2 ⟨_, depad_idempotent hu, (finish_finish u).symm⟩

/-- Settles O35: SENC and SDEC run KXOR's pseudocode. -/
theorem streamCommandsAreKeyXorAlone : Obligations.StreamCommandsAreKeyXorAlone := by
  intro s i hi hlen hpos hcap hdata hkey
  have hexec : exec i s = exec .kxor s := exec_eq_exec_kxor (List.mem_cons_of_mem _ (List.mem_pair.2 hi)) s
  rw [hexec]
  exact ⟨rfl, kxorMixesEveryByteWithItsKeyByte s hlen hpos hcap hdata hkey⟩

/-- Settles O38: the second SWAP finds its operands ready and undoes the arrangement of the first. -/
theorem swapTwiceRestoresTheBuffer : Obligations.SwapTwiceRestoresTheBuffer := by
  intro s hlen hpos hcap hdata hkey
  obtain ⟨m, hm, hready, hr⟩ := OperandsReady.swap_permutes ⟨hlen, hpos, hcap, hdata, hkey⟩
  obtain ⟨m', hm', -, hr'⟩ := hready.after_finish.swap_permutes
  refine ⟨_, _, congrArg complete hm, congrArg complete hm', rfl, fun a => ?_⟩
  calc m'.read a = m.read (swapSource s s.len.toNat a) := hr' a
    _ = s.dbuf.read (swapSource s s.len.toNat (swapSource s s.len.toNat a)) := hr _
    _ = s.dbuf.read a := by rw [swapSource_swapSource]

/-- The arrangement looks at KEYLEN and KEYMEM alone. -/
theorem swapSource_congr (hkeylen : t.keylen = s.keylen) (hkeymem : t.keymem = s.keymem) :
    swapSource t = swapSource s := by
  have hparity : keyParityAt t = keyParityAt s := by
    funext i
    rw [keyParityAt, keyParityAt, hkeylen, hkeymem]
  have hpairs : pairExchanged t = pairExchanged s := by
    funext n p
    rw [pairExchanged, pairExchanged, hparity]
  funext n
  rw [swapSource_eq_mirrorWhere, swapSource_eq_mirrorWhere, hpairs]

theorem swapSource_eq_or (s : State) (n a : Nat) : swapSource s n a = a ∨ (a < n ∧ swapSource s n a = n - 1 - a) := by
  unfold swapSource
  split_ifs with h
  · exact .inr ⟨h.1, rfl⟩
  · exact .inl rfl

/-- A SWAP that completes leaves R153's arrangement of the buffer. -/
theorem exec_swap_read (h : exec .swap s = .next t) (a : Nat) :
    t.dbuf.read a = s.dbuf.read (swapSource s s.len.toNat a) := by
  obtain ⟨u, hu, rfl⟩ := exec_eq_next.1 h
  exact swap_read hu a

/-- Settles O39: both states have R153's arrangement, which looks at LEN and the key alone. -/
theorem swapNeverLooksAtData : Obligations.SwapNeverLooksAtData := by
  intro s s' t t' hlen hkeylen hkeymem ht ht'
  refine ⟨swapSource s s.len.toNat, swapSource_swapSource s _, swapSource_eq_or s _, exec_swap_read ht, fun a => ?_⟩
  rw [exec_swap_read ht', hlen, swapSource_congr hkeylen hkeymem]

end Sys2Proof.Machine
end

section
/-! The pipelines as chains of stage commands (43_pipelines.md R180): the BUSY and DONE that a completed stage leaves
are nothing to the next stage. -/

namespace Sys2Proof.Machine

variable {s t u : State} {x : Status}

theorem writeData_setStatus {i : Nat} {b : Byte} (h : writeData s i b = .ok t) (x : Status) :
    writeData (s.setStatus x) i b = .ok (t.setStatus x) := by
  obtain ⟨hi, rfl⟩ := writeData_eq_ok.1 h
  exact writeData_eq_ok.2 ⟨hi, rfl⟩

/-- The units neither read nor write STATUS. -/
theorem keyXorFrom_setStatus {k i : Nat} (h : keyXorFrom k i s = .ok t) (x : Status) :
    keyXorFrom k i (s.setStatus x) = .ok (t.setStatus x) := by
  induction k generalizing i s with
  | zero => cases h; rfl
  | succ k ih =>
    obtain ⟨b, hb, h⟩ := bind_eq_ok.1 h
    obtain ⟨key, hkey, h⟩ := bind_eq_ok.1 h
    obtain ⟨u, hu, h⟩ := bind_eq_ok.1 h
    exact bind_eq_ok.2 ⟨b, hb, bind_eq_ok.2 ⟨key, hkey, bind_eq_ok.2 ⟨_, writeData_setStatus hu x, ih h⟩⟩⟩

theorem exchangeIfOdd_setStatus {key : Byte} {start stop : Int} (h : exchangeIfOdd key s start stop = .ok t)
    (x : Status) : exchangeIfOdd key (s.setStatus x) start stop = .ok (t.setStatus x) := by
  unfold exchangeIfOdd at h ⊢
  split_ifs at h ⊢
  · obtain ⟨a, ha, h⟩ := bind_eq_ok.1 h
    obtain ⟨b, hb, h⟩ := bind_eq_ok.1 h
    obtain ⟨y, hy, h⟩ := bind_eq_ok.1 h
    obtain ⟨z, hz, h⟩ := bind_eq_ok.1 h
    obtain ⟨u, hu, h⟩ := bind_eq_ok.1 h
    exact bind_eq_ok.2 ⟨a, ha, bind_eq_ok.2 ⟨b, hb, bind_eq_ok.2 ⟨y, hy, bind_eq_ok.2 ⟨z, hz,
      bind_eq_ok.2 ⟨_, writeData_setStatus hu x, writeData_setStatus h x⟩⟩⟩⟩⟩
  · cases h
    rfl

theorem swapFrom_setStatus {n k i : Nat} {start stop : Int} (h : swapFrom n k i start stop s = .ok t) (x : Status) :
    swapFrom n k i start stop (s.setStatus x) = .ok (t.setStatus x) := by
  induction k generalizing i start stop s with
  | zero => cases h; rfl
  | succ k ih =>
    obtain ⟨key, hkey, h⟩ := bind_eq_ok.1 h
    obtain ⟨u, hu, h⟩ := bind_eq_ok.1 h
    refine bind_eq_ok.2 ⟨key, hkey, bind_eq_ok.2 ⟨_, exchangeIfOdd_setStatus hu x, ?_⟩⟩
    split_ifs at h ⊢ <;> exact ih h

/-- A stage on a completed state answers what it answers before the completion, completed. -/
theorem keyXor_finish (h : keyXor s = .ok t) : keyXor (finish s) = .ok (finish t) := by
  have hstatus : t.status = s.status := by rw [(keyXor_writes h).1]; rfl
  rw [finish_eq t, hstatus]
  exact keyXorFrom_setStatus h _

theorem swap_finish (h : swap s = .ok t) : swap (finish s) = .ok (finish t) := by
  have hstatus : t.status = s.status := by rw [(swap_writes h).1]; rfl
  rw [finish_eq t, hstatus]
  exact swapFrom_setStatus h _

theorem depad_finish (h : depad s = .ok t) : depad (finish s) = .ok (finish t) := by
  obtain ⟨r, hloop, rfl⟩ := depad_eq_ok h
  exact bind_eq_ok.2 ⟨r, (depadLength_congr (s := s) (t := finish s) rfl rfl _).trans hloop, rfl⟩

/-- A ready key-using command, other than BENC, finds its operands ready. -/
theorem Ready.operandsReady {i : Instr} (h : Ready i s) (hi : i ≠ .pad ∧ i ≠ .depad)
    (hkeys : keyPositions i s = s.len.toNat) : OperandsReady s := by
  obtain ⟨hv, hdata, hkey⟩ := h
  rw [hkeys] at hkey
  exact { operandsInRange_of_validate hi hv with data := hdata, key := hkey }

/-- A ready BENC finds the operands of its later stages ready after PAD. -/
theorem Ready.pad_ready (h : Ready .benc s) (hcap : s.bufcap.toNat % 16 = 0) :
    ∃ t, pad s = .ok t ∧ OperandsReady t := by
  obtain ⟨hv, hdata, hkey⟩ := h
  have hrange := operandsInRange_of_validate (by decide) hv
  have hceil := ceil16_le hrange.len_le hcap
  obtain ⟨m, hpad, hr⟩ := pad_appends hceil
  obtain ⟨-, hlen, -⟩ := pad_frame hpad
  refine ⟨_, hpad, { hrange with len_le := hlen.trans_le hceil, data := fun a ha => ?_, key := fun p hp => ?_ }⟩
  · rw [hlen] at ha
    rw [State.setLen_dbuf, State.setDbuf_dbuf, hr]
    split_ifs
    · rfl
    · exact hdata a (by omega)
  · rw [hlen] at hp
    exact hkey p hp

theorem OperandsReady.depad_total (h : OperandsReady s) : ∃ t, depad s = .ok t := by
  obtain ⟨r, hloop⟩ := depadLength_total h.len_le h.data
  exact ⟨_, bind_eq_ok.2 ⟨r, hloop, rfl⟩⟩

/-- A command whose pseudocode answers a state. -/
theorem exec_of_pseudocode {i : Instr} (h : pseudocode i s = .ok t) : exec i s = .next (finish t) :=
  exec_eq_next.2 ⟨t, h, rfl⟩

/-- A stage command on a completed state, after which the status is no other. -/
theorem exec_of_finished_stage {i : Instr} (h : pseudocode i (finish s) = .ok (finish t)) :
    exec i (finish s) = .next (finish t) :=
  exec_eq_next.2 ⟨finish t, h, rfl⟩

/-- Settles O40: each stage answers, and its completion does not show in the stages after it. -/
theorem pipelinesAreStageChains : Obligations.PipelinesAreStageChains := by
  intro s hcaps
  constructor
  · intro hready
    obtain ⟨t, hpad, hpadded⟩ := Ready.pad_ready hready (bufcap_mod_of_capsLegal hcaps)
    obtain ⟨x, hxor, hmixed, -⟩ := hpadded.keyXor_mixes
    obtain ⟨c, hswap, -⟩ := hmixed.swap_permutes
    have hbenc : pseudocode .benc s = .ok ((t.setDbuf x).setDbuf c) :=
      bind_eq_ok.2 ⟨_, hpad, bind_eq_ok.2 ⟨_, hxor, hswap⟩⟩
    exact ⟨finish t, finish (t.setDbuf x), finish ((t.setDbuf x).setDbuf c), exec_of_pseudocode hpad,
      exec_of_finished_stage (keyXor_finish hxor), exec_of_finished_stage (swap_finish hswap),
      exec_of_pseudocode hbenc⟩
  · intro hready
    obtain ⟨w, hswap, hswapped, -⟩ := (Ready.operandsReady hready (by decide) rfl).swap_permutes
    obtain ⟨x, hxor, hplain, -⟩ := hswapped.keyXor_mixes
    obtain ⟨v, hdepad⟩ := hplain.depad_total
    have hbdec : pseudocode .bdec s = .ok v := bind_eq_ok.2 ⟨_, hswap, bind_eq_ok.2 ⟨_, hxor, hdepad⟩⟩
    exact ⟨finish (s.setDbuf w), finish ((s.setDbuf w).setDbuf x), finish v, exec_of_pseudocode hswap,
      exec_of_finished_stage (keyXor_finish hxor), exec_of_finished_stage (depad_finish hdepad),
      exec_of_pseudocode hbdec⟩

end Sys2Proof.Machine
end

section
/-! The pipelines against the source (00_scope.md R19, 43_pipelines.md R170, R172): each unit of the datapath does in
place what the source's function does to the byte sequence. -/

namespace Sys2Proof.Machine

variable {s : State} {p k : List Byte} {m : Memory}

/-- The key byte of a position (R18). -/
theorem HoldsKey.read_keyByte (h : HoldsKey s k) (hk : k ≠ []) (i : Nat) :
    s.keymem.read (i % s.keylen.toNat) = some (Source.keyByte k i) := by
  obtain ⟨hlen, hread⟩ := h
  have hmod : i % k.length < k.length := Nat.mod_lt i (List.length_pos_iff.2 hk)
  rw [hlen, hread _ hmod, Source.keyByte, List.getD_eq_getElem _ _ hmod, List.getElem?_eq_getElem hmod]

/-- The pairs that the key exchanges are the source's (R153). -/
theorem HoldsKey.pairExchanged_eq (h : HoldsKey s k) (hk : k ≠ []) (n q : Nat) :
    pairExchanged s n q = Source.exchanged k n q := by
  have hparity : keyParityAt s = fun i => (Source.keyByte k i).toNat % 2 := by
    funext i
    rw [keyParityAt, HoldsKey.read_keyByte h hk]
    rfl
  rw [pairExchanged, Source.exchanged, hparity]

/-- The in-place key XOR is the source's. -/
theorem holdsBuffer_xorWithKey (hbuf : HoldsBuffer s p) (hkey : HoldsKey s k) (hk : k ≠ [])
    (hr : ∀ a, m.read a = if a < s.len.toNat then xorAt s a else s.dbuf.read a) :
    HoldsBuffer (s.setDbuf m) (Source.xorWithKey p k) := by
  obtain ⟨hlen, hread⟩ := hbuf
  refine ⟨by simpa [Source.xorWithKey] using hlen, fun a ha => ?_⟩
  have hap : a < p.length := by simpa [Source.xorWithKey] using ha
  rw [State.setDbuf_dbuf, hr, if_pos (hlen ▸ hap), xorAt, hread a hap, HoldsKey.read_keyByte hkey hk]
  simp [Source.xorWithKey, hap]

/-- The in-place swap is the source's. -/
theorem holdsBuffer_swap (hbuf : HoldsBuffer s p) (hkey : HoldsKey s k) (hk : k ≠ [])
    (hr : ∀ a, m.read a = s.dbuf.read (swapSource s s.len.toNat a)) :
    HoldsBuffer (s.setDbuf m) (Source.swap p k) := by
  obtain ⟨hlen, hread⟩ := hbuf
  refine ⟨by simpa [Source.swap] using hlen, fun a ha => ?_⟩
  have hap : a < p.length := by simpa [Source.swap] using ha
  rw [State.setDbuf_dbuf, hr, hlen, hread _ (swapSource_lt hap)]
  simp only [Source.swap, List.getElem?_mapIdx, swapSource, mirrorPair, HoldsKey.pairExchanged_eq hkey hk]
  have hmirror : p.length - 1 - a < p.length := by omega
  by_cases hpair : min a (p.length - 1 - a) < p.length / 2 ∧
      Source.exchanged k p.length (min a (p.length - 1 - a)) = true
  · rw [if_pos ⟨hap, hpair⟩, List.getElem?_eq_getElem hap, Option.map_some, if_pos hpair,
      List.getD_eq_getElem _ _ hmirror, List.getElem?_eq_getElem hmirror]
  · rw [if_neg fun h => hpair h.2, List.getElem?_eq_getElem hap, Option.map_some, if_neg hpair]

/-- BENC's last two stages on ready operands. -/
theorem keyXor_swap_holds (h : OperandsReady s) (hbuf : HoldsBuffer s p) (hkey : HoldsKey s k) (hk : k ≠ []) :
    ∃ c, keyXor s >>= swap = .ok (s.setDbuf c) ∧ HoldsBuffer (s.setDbuf c) (Source.swap (Source.xorWithKey p k) k) := by
  obtain ⟨x, hx, hready, hxr⟩ := h.keyXor_mixes
  obtain ⟨c, hc, -, hcr⟩ := hready.swap_permutes
  have hmixed := holdsBuffer_xorWithKey (m := x) hbuf hkey hk hxr
  exact ⟨c, bind_eq_ok.2 ⟨_, hx, hc⟩, holdsBuffer_swap (s := s.setDbuf x) hmixed hkey hk hcr⟩

/-- BDEC's first two stages on ready operands. -/
theorem swap_keyXor_holds (h : OperandsReady s) (hbuf : HoldsBuffer s p) (hkey : HoldsKey s k) (hk : k ≠ []) :
    ∃ w x, swap s = .ok w ∧ keyXor w = .ok (s.setDbuf x) ∧
      HoldsBuffer (s.setDbuf x) (Source.xorWithKey (Source.swap p k) k) := by
  obtain ⟨w, hw, hready, hwr⟩ := h.swap_permutes
  obtain ⟨x, hx, -, hxr⟩ := hready.keyXor_mixes
  have hswapped := holdsBuffer_swap (m := w) hbuf hkey hk hwr
  exact ⟨_, x, hw, hx, holdsBuffer_xorWithKey (s := s.setDbuf w) hswapped hkey hk hxr⟩

/-- Settles O41: PAD, KXOR and SWAP do in place what the source's functions do, and completion's frame is the rest. -/
theorem bencRefinesTheSourcePipeline : Obligations.BencRefinesTheSourcePipeline := by
  intro s p k hcaps hbuf hkey hk hfit hkc
  have hcap := bufcap_mod_of_capsLegal hcaps
  obtain ⟨m, n, hpad, hpadded⟩ := pad_of_holdsBuffer hbuf hcap hfit
  have hlen : n.toNat = ceil16 p.length := by rw [← length_sourcePad]; exact hpadded.1
  have hready : OperandsReady ((s.setDbuf m).setLen n) :=
    .of_holds hpadded hkey hk (by rw [length_sourcePad]; exact ceil16_le hfit hcap) hkc
  obtain ⟨c, hmix, hholds⟩ := keyXor_swap_holds hready hpadded hkey hk
  have hexec := exec_of_pseudocode (i := .benc) (bind_eq_ok.2 ⟨_, hpad, hmix⟩)
  obtain ⟨-, habove, -⟩ := completionFrame .benc s _ hexec
  obtain rfl : n = BitVec.ofNat 32 (ceil16 p.length) := by rw [← hlen, BitVec.ofNat_toNat, BitVec.setWidth_eq]
  refine ⟨c, hexec, hholds, fun a ha => habove a ?_ (hlen.trans_le ha)⟩
  rw [hbuf.1]
  exact (ceil16_bounds _).1.trans ha

/-- The source's depad strips exactly the trailing run of pad bytes. -/
theorem sourceDepad_append_run (p : List Byte) :
    (∃ r, Source.depad p ++ List.replicate r padByte = p) ∧ (Source.depad p).getLast? ≠ some padByte := by
  have hdepad : Source.depad p = p.rdropWhile (· == padByte) := rfl
  rw [hdepad]
  constructor
  · refine ⟨(p.rtakeWhile (· == padByte)).length, ?_⟩
    rw [← List.eq_replicate_length.2 fun b hb => by simpa using List.mem_rtakeWhile_imp hb]
    exact List.rdropWhile_append_rtakeWhile
  · intro hlast
    have hne : p.rdropWhile (· == padByte) ≠ [] := by
      intro hnil
      simp [hnil] at hlast
    rw [List.getLast?_eq_some_getLast hne] at hlast
    exact List.rdropWhile_last_not _ _ hne (beq_iff_eq.2 (Option.some.inj hlast))

/-- `Depad()` leaves the source's depad of the buffer, and in DBUF the run that it strips. -/
theorem depad_holds (hbuf : HoldsBuffer s p) (hfit : p.length ≤ s.bufcap.toNat) :
    ∃ n, depad s = .ok (s.setLen n) ∧ n.toNat ≤ p.length ∧ HoldsBuffer (s.setLen n) (Source.depad p) ∧
      ∀ a, n.toNat ≤ a → a < p.length → s.dbuf.read a = some padByte := by
  obtain ⟨⟨r, hrun⟩, hlast⟩ := sourceDepad_append_run p
  have hlen := hbuf.1
  have hsplit := hbuf
  rw [← hrun] at hsplit
  have hholds := HoldsBuffer.setLen_of_append hsplit
  have hn : (BitVec.ofNat 32 (Source.depad p).length).toNat = (Source.depad p).length := hholds.1
  refine ⟨_, depad_of_holdsBuffer hsplit hlast (hlen.trans_le hfit), ?_, hholds, fun a hna ha => ?_⟩
  · have hparts := congrArg List.length hrun
    rw [List.length_append] at hparts
    omega
  · exact HoldsBuffer.read_run hsplit (hn.ge.trans hna) (ha.trans_eq hlen.symm)

/-- Settles O42: SWAP, KXOR and DEPAD do in place what the source's functions do, and completion's frame is the
rest. -/
theorem bdecRefinesTheSourcePipeline : Obligations.BdecRefinesTheSourcePipeline := by
  intro s c k hcaps hbuf hkey hk hfit hkc
  have hready : OperandsReady s := .of_holds hbuf hkey hk hfit hkc
  obtain ⟨w, x, hswap, hxor, hplain⟩ := swap_keyXor_holds hready hbuf hkey hk
  have hlen : (Source.xorWithKey (Source.swap c k) k).length = c.length := by simp [Source.xorWithKey, Source.swap]
  obtain ⟨n, hdepad, hn, hholds, hrun⟩ := depad_holds hplain (hlen.trans_le hfit)
  rw [hlen] at hn hrun
  have hexec := exec_of_pseudocode (i := .bdec) (bind_eq_ok.2 ⟨_, hswap, bind_eq_ok.2 ⟨_, hxor, hdepad⟩⟩)
  obtain ⟨-, habove, -⟩ := completionFrame .bdec s _ hexec
  exact ⟨n, x, hexec, hn, hholds, hrun, fun a ha => habove a (hbuf.1.trans_le ha) (hn.trans ha)⟩

end Sys2Proof.Machine
end
